-- ==== Sys2Proof/Word.lean ====
section
/-! DEFINITION. The word type of the core.

Every value that enters, leaves or is kept by the core is an unsigned 64-bit word (00_scope.md R8, R11). The operators
of R12 are BitVec's own: `+` and `*` wrap modulo 2^64, `^^^` is exclusive or, `|||` is or, `<<<` and `>>>` are logical
shifts that fill with zeros. Nothing reads a word as signed. -/

namespace Sys2Proof

/-- One unsigned 64-bit word (R8). -/
abbrev Word := BitVec 64

/-- One 32-bit command word, REQ_CMD (30_encoding.md R51). -/
abbrev CmdWord := BitVec 32

end Sys2Proof
end

