-- ==== Sys2Proof/Config.lean ====
section
/-! DEFINITION. What an implementation fixes, and the one free value of the model.

The algorithm constants of R9 are NOT here: none is a parameter (they stand in Machine/Functions.lean). -/

namespace Sys2Proof.Config

/-- FREE VALUE (log entry 2, safe). What an assertion of RESET leaves in a register that has 'no value' after reset
(10_state.md R35, 70_reset_and_hazards.md R95). Each use is applied to the next number of the core's own
counter `State.draws`; what that says of two cores is log entry 17.
It has no body: no proof can see a value of it. -/
opaque noValue : Nat → Word

/-- How RESET acts on the clock (part of the parameter RESET_KIND, R10, R95). -/
inductive ResetTiming where
  | synchronous
  | asynchronous
deriving DecidableEq, Repr

/-- Which level of RESET asserts it (part of the parameter RESET_KIND, R10, R95). -/
inductive ResetPolarity where
  | activeHigh
  | activeLow
deriving DecidableEq, Repr

/-- The four parameters the spec leaves to the implementation (R10). The model takes them as an argument where they
matter: `nCores` in Machine/System.lean. No rule of one core depends on any of them, so no other definition of the
model mentions them (log entry 7). -/
structure Params where
  /-- N_CORES: the number of core instances in a system (R91). -/
  nCores : Nat
  /-- LATENCY(cmd): cycles from accepting a command to its response (R100). The model has no time. -/
  latency : CmdWord → Nat
  /-- LATENCY(cmd) >= 1 (R10). -/
  latency_pos : ∀ c, 1 ≤ latency c
  /-- RESET_KIND: synchronous or asynchronous, and its polarity (R95). -/
  resetKind : ResetTiming × ResetPolarity
  /-- STREAM_BYTE_ORDER: which byte of a word an external serialiser writes at each of the eight positions (R40). It is
  outside the core. -/
  streamByteOrder : Vector (Fin 8) 8

end Sys2Proof.Config
end

