-- ==== Sys2Proof/Syntax.lean ====
section
/-! DEFINITION. The commands of the core, one constructor per row of spec/opcode_table.json, and the two forms in which
a host writes them: a request on the request channel (30_encoding.md R49, R51) and a line of assembly (R57). -/

namespace Sys2Proof

/-- The ten operations of R53. A.SEED and B.SEED carry the 64-bit operand they read as their seed (R52); B.PEEK carries
its 2-bit word index (R51, R70); the others carry nothing, because they ignore REQ_OPERAND (R52). -/
inductive Instr where
  /-- A.SEED: construct generator A (R61). -/
  | aSeed (seed : Word)
  /-- A.NEXT: advance generator A and return its output (R62). -/
  | aNext
  /-- A.PEEK: read generator A's state (R64). -/
  | aPeek
  /-- B.SEED: construct generator B by seed expansion (R71). -/
  | bSeed (seed : Word)
  /-- B.NEXT: return generator B's next output and advance it (R69). -/
  | bNext
  /-- B.PEEK: read one word of generator B's state (R70). -/
  | bPeek (idx : BitVec 2)
  /-- RD.MIN: read the minimum output value (R77). -/
  | rdMin
  /-- RD.MAX: read the maximum output value (R78). -/
  | rdMax
  /-- RD.STATUS: read the status register (R79). -/
  | rdStatus
  /-- CLR.STATUS: clear the sticky error bits (R80). -/
  | clrStatus
deriving DecidableEq, Repr

/-- One request on the request channel: the command word REQ_CMD and the operand REQ_OPERAND (R49, R51). -/
structure Request where
  cmd : CmdWord
  operand : Word
deriving DecidableEq, Repr

/-- One line of assembly after reading its text (R57). A literal or an index is a number of any size here: R57 makes one
that is out of range an assembly error, which WellFormed.lean and the assembler check. -/
inductive AsmLine where
  | aSeed (literal : Nat)
  | aNext
  | aPeek
  | bSeed (literal : Nat)
  | bNext
  | bPeek (idx : Nat)
  | rdMin
  | rdMax
  | rdStatus
  | clrStatus
deriving DecidableEq, Repr

end Sys2Proof
end

