-- ==== Sys2Proof/WellFormed.lean ====
section
/-! DEFINITION. Well-formedness checks.

An `Instr` needs none: every 64-bit seed is legal (30_encoding.md R52) and every 2-bit index is legal (41_generator_b.md
R70), and the types of its fields hold nothing else. A line of assembly has the two range checks of R57. A command WORD's
legality is R55's, and stands as `legalCmd` in Decode.lean. -/

namespace Sys2Proof

/-- Every instruction is well formed: R52 makes every operand legal and R70 every index. -/
def Instr.wellFormed : Instr → Bool
  | .aSeed _ => true
  | .aNext => true
  | .aPeek => true
  | .bSeed _ => true
  | .bNext => true
  | .bPeek _ => true
  | .rdMin => true
  | .rdMax => true
  | .rdStatus => true
  | .clrStatus => true

/-- R57: 'A literal outside 0..2^64 − 1, or a b.peek index outside 0..3, is an assembly error, not a command.' -/
def AsmLine.wellFormed : AsmLine → Bool
  | .aSeed n => decide (n < 2 ^ 64)
  | .aNext => true
  | .aPeek => true
  | .bSeed n => decide (n < 2 ^ 64)
  | .bNext => true
  | .bPeek i => decide (i < 4)
  | .rdMin => true
  | .rdMax => true
  | .rdStatus => true
  | .clrStatus => true

end Sys2Proof
end

