-- ==== Sys2Proof/Decode.lean ====
section
/-! DEFINITION. Command words: their fields, the decoder of R54, the encoder, and R55's own account of which words are
legal (30_encoding.md).

The decoder is total on every 32-bit word and every operand. It rejects with `none`, which is R54's ILLEGAL: the core
then gives the ILLEGAL response (Machine/Input.lean). The core has no byte order (R39), so the decoder reads the word
itself and no bytes. -/

namespace Sys2Proof

/-- OP = REQ_CMD[7:0] (R51). -/
def opField (c : CmdWord) : BitVec 8 := c.extractLsb' 0 8

/-- IDX = REQ_CMD[9:8] (R51). -/
def idxField (c : CmdWord) : BitVec 2 := c.extractLsb' 8 2

/-- RSV = REQ_CMD[31:10] (R51). -/
def rsvField (c : CmdWord) : BitVec 22 := c.extractLsb' 10 22

/-- The nine operations that have no index, by OP (R53, and the `case` of R54). The operand reaches only the two seeding
commands (R52). -/
def decodeOp (op : BitVec 8) (operand : Word) : Option Instr :=
  if op = 0x01#8 then some (.aSeed operand)
  else if op = 0x02#8 then some .aNext
  else if op = 0x03#8 then some .aPeek
  else if op = 0x11#8 then some (.bSeed operand)
  else if op = 0x12#8 then some .bNext
  else if op = 0x21#8 then some .rdMin
  else if op = 0x22#8 then some .rdMax
  else if op = 0x31#8 then some .rdStatus
  else if op = 0x32#8 then some .clrStatus
  else none

/-- R54, line by line: reserved bits first, then B.PEEK with its index, then a stray index, then the other operations.
`none` is ILLEGAL. -/
def decode (c : CmdWord) (operand : Word) : Option Instr :=
  if rsvField c ≠ 0#22 then none
  else if opField c = 0x13#8 then some (.bPeek (idxField c))
  else if idxField c ≠ 0#2 then none
  else decodeOp (opField c) operand

/-- The decoder on a request. -/
def Request.decode (r : Request) : Option Instr := Sys2Proof.decode r.cmd r.operand

/-- R51's format, put together from its fields: RSV = 0, IDX, OP. -/
def cmdWord (idx : BitVec 2) (op : BitVec 8) : CmdWord := 0#22 ++ idx ++ op

/-- The request that stands for an instruction: R53's word, and R57's operand (0 where it is ignored). -/
def encode : Instr → Request
  | .aSeed seed => ⟨cmdWord 0 0x01#8, seed⟩
  | .aNext => ⟨cmdWord 0 0x02#8, 0⟩
  | .aPeek => ⟨cmdWord 0 0x03#8, 0⟩
  | .bSeed seed => ⟨cmdWord 0 0x11#8, seed⟩
  | .bNext => ⟨cmdWord 0 0x12#8, 0⟩
  | .bPeek idx => ⟨cmdWord idx 0x13#8, 0⟩
  | .rdMin => ⟨cmdWord 0 0x21#8, 0⟩
  | .rdMax => ⟨cmdWord 0 0x22#8, 0⟩
  | .rdStatus => ⟨cmdWord 0 0x31#8, 0⟩
  | .clrStatus => ⟨cmdWord 0 0x32#8, 0⟩

/-- The ten OP values of R53. -/
def opValues : List (BitVec 8) :=
  [0x01#8, 0x02#8, 0x03#8, 0x11#8, 0x12#8, 0x13#8, 0x21#8, 0x22#8, 0x31#8, 0x32#8]

/-- R55's account of the legal words, written apart from the decoder: RSV = 0, OP one of the ten, and IDX = 0 unless
OP is 0x13. -/
def legalCmd (c : CmdWord) : Bool :=
  rsvField c == 0#22 && opValues.contains (opField c) && (idxField c == 0#2 || opField c == 0x13#8)

/-- The match value of an instruction's row in spec/opcode_table.json (R53). -/
def Instr.matchBits : Instr → CmdWord
  | .aSeed _ => 0x00000001#32
  | .aNext => 0x00000002#32
  | .aPeek => 0x00000003#32
  | .bSeed _ => 0x00000011#32
  | .bNext => 0x00000012#32
  | .bPeek _ => 0x00000013#32
  | .rdMin => 0x00000021#32
  | .rdMax => 0x00000022#32
  | .rdStatus => 0x00000031#32
  | .clrStatus => 0x00000032#32

/-- The mask of an instruction's row in spec/opcode_table.json: B.PEEK's leaves IDX free, every other fixes all 32 bits
(R53). -/
def Instr.maskBits : Instr → CmdWord
  | .aSeed _ => 0xffffffff#32
  | .aNext => 0xffffffff#32
  | .aPeek => 0xffffffff#32
  | .bSeed _ => 0xffffffff#32
  | .bNext => 0xffffffff#32
  | .bPeek _ => 0xfffffcff#32
  | .rdMin => 0xffffffff#32
  | .rdMax => 0xffffffff#32
  | .rdStatus => 0xffffffff#32
  | .clrStatus => 0xffffffff#32

/-- A table word as a request (log entry 6): of the low `nbits` bits of `w`, bits 31:0 are REQ_CMD and bits 95:32 are
REQ_OPERAND. The table's rows have 32 bits, so their operand is 0. -/
def requestOfTableWord (nbits w : Nat) : Request :=
  ⟨BitVec.ofNat 32 (w % 2 ^ nbits), BitVec.ofNat 64 (w % 2 ^ nbits / 2 ^ 32)⟩

/-- The instruction the decoder reads from a table word. -/
def decodeTableWord (nbits w : Nat) : Option Instr := (requestOfTableWord nbits w).decode

end Sys2Proof
end

