-- ==== Sys2Proof/Machine/State.lean ====
section
/-! DEFINITION. The state of one core, its channels, and the state after reset.

`State` holds exactly the architectural state of 10_state.md R17, and beside it the core's two channels as the host sees
them (30_encoding.md R49, R50) and one counter of the model's own. The core has no memory, no program counter, no
register file, no mode and no trap state (R32, R33, R34, R38, R88, R89), so `State` has none. -/

namespace Sys2Proof.Machine

/-- Why a step could stop with a fault: never. 'every core operation is total' (60_exceptions.md R86); an error is a
response, not a stop (R85, R88). The type has no constructor (log entry 14). -/
inductive Fault
deriving DecidableEq, Repr

/-- Why a step could be refused. -/
inductive Refusal where
  /-- An instruction without a meaning yet. Raised by no arm of `exec`: every row of the table has its meaning. It would
  be safe. -/
  | notModelled (mnemonic : String)
deriving DecidableEq, Repr

/-- The response codes of 60_exceptions.md R81. Code 3 is reserved and never given, so it has no constructor (log
entry 15). -/
inductive RspCode where
  /-- OK: the command was carried out by its rule. -/
  | ok
  /-- ILLEGAL: the command word is not a legal encoding (R82). -/
  | illegal
  /-- UNSEEDED: the command reads a generator that has not been seeded since reset (R83). -/
  | unseeded
deriving DecidableEq, Repr

/-- One response on the response channel: RSP_CODE and RSP_DATA (R49). -/
structure Response where
  code : RspCode
  data : Word
deriving DecidableEq, Repr

/-- The two error causes (60_exceptions.md R82, R83). -/
inductive ErrorCause where
  | illegal
  | unseeded
deriving DecidableEq, Repr

/-- Generator B's state array B_S[0..3], in order; the source's `s0, s1, s2, s3` (R20). -/
@[ext]
structure BState where
  s0 : Word
  s1 : Word
  s2 : Word
  s3 : Word
deriving DecidableEq, Repr

/-- The all-zero vector, which generator B never holds while it is seeded (R22). -/
def BState.zero : BState := ⟨0, 0, 0, 0⟩

/-- What the host does at the core's ports (R49, R50, R90). -/
inductive HostInput where
  /-- Offers a command on the request channel: REQ_VALID, REQ_CMD, REQ_OPERAND. -/
  | command (req : Request)
  /-- Takes the response on offer: RSP_READY (R50). -/
  | take
  /-- Asserts RESET, or power comes up (R95, R97). -/
  | reset
  /-- Offers a command, and RESET comes after the core has accepted it and before its response (R96; log entry 10). -/
  | cutCommand (req : Request)
deriving DecidableEq, Repr

/-- One core with its channels. -/
@[ext]
structure State where
  /-- The response channel: the response given and not yet taken; `none` is RSP_VALID = 0 (R50; log entry 4). -/
  rsp : Option Response
  /-- A_SEEDED (R24). -/
  aSeeded : Bool
  /-- B_SEEDED (R25). -/
  bSeeded : Bool
  /-- ERR_ILL (R27). -/
  errIll : Bool
  /-- ERR_UNS (R28). -/
  errUns : Bool
  /-- The request side: what the host does next, oldest first (the model's own; log entry 3). -/
  host : List HostInput
  /-- The responses the host has taken since the run began, oldest first: what a run shows (R101; log entry 4). -/
  taken : List Response
  /-- How many free values have been drawn (the model's own; log entry 2). -/
  draws : Nat
  /-- A_STATE, 64 bits (R18). -/
  aState : Word
  /-- B_S[0..3], 64 bits each (R20). -/
  bS : BState
  /-- E_STATE, 64 bits: the seed-expansion engine's scratch (R23; log entry 11). -/
  eState : Word
deriving DecidableEq, Repr

/-- The machine right after reset (10_state.md R35, 70_reset_and_hazards.md R95): the four flags are 0 and no response is
on offer. The spec gives A_STATE, B_S and E_STATE no value; the zeros here are a DESIGN CHOICE (log entry 1, unsafe),
as are the empty script and record and the counter's 0 (log entries 2, 3, 4). -/
def State.reset : State where
  rsp := none
  aSeeded := false
  bSeeded := false
  errIll := false
  errUns := false
  host := []
  taken := []
  draws := 0
  aState := 0
  bS := BState.zero
  eState := 0

end Sys2Proof.Machine
end

