-- ==== Sys2Proof/Machine/Flags.lean ====
section
/-! DEFINITION. The flags and the status register. The core has no arithmetic flags (10_state.md R34): its only flags are
A_SEEDED, B_SEEDED, ERR_ILL and ERR_UNS, and STATUS is a view of them (R26). -/

namespace Sys2Proof.Machine

/-- `STATUS = zext_64({ERR_UNS, ERR_ILL, B_SEEDED, A_SEEDED})` (R26); bits 63:4 are hardwired 0 (R29). -/
def State.status (s : State) : Word :=
  (BitVec.ofBool s.errUns ++ BitVec.ofBool s.errIll ++ BitVec.ofBool s.bSeeded ++ BitVec.ofBool s.aSeeded).setWidth 64

/-- The 2-bit RSP_CODE (R81). -/
def RspCode.bits : RspCode → BitVec 2
  | .ok => 0#2
  | .illegal => 1#2
  | .unseeded => 2#2

/-- The response code an error gives (R82, R83). -/
def ErrorCause.code : ErrorCause → RspCode
  | .illegal => .illegal
  | .unseeded => .unseeded

/-- The sticky bit an error sets; the other STATUS bits stay (R85). -/
def setSticky (c : ErrorCause) (s : State) : State :=
  match c with
  | .illegal => { s with errIll := true }
  | .unseeded => { s with errUns := true }

/-- CLR.STATUS's writes: both sticky bits to 0, the seeded flags untouched (R80). -/
def clearSticky (s : State) : State := { s with errIll := false, errUns := false }

/-- REQ_READY between two steps: the core takes no command while a response is on offer (R50). -/
def State.reqReady (s : State) : Bool := s.rsp.isNone

/-- RSP_VALID (R50). -/
def State.rspValid (s : State) : Bool := s.rsp.isSome

/-- REQ_VALID: the host offers a command (R49). -/
def State.reqValid (s : State) : Bool :=
  match s.host with
  | .command _ :: _ => true
  | .cutCommand _ :: _ => true
  | .take :: _ => false
  | .reset :: _ => false
  | [] => false

end Sys2Proof.Machine
end

