-- ==== Sys2Proof/Machine/Functions.lean ====
section
/-! DEFINITION. The pure functions of the core: constants (R9), rotation (R13), generator A's step and mix (R59, R62),
generator B's scramble and advance (R65, R66), and the inverses the spec gives for them (R60, R67). -/

namespace Sys2Proof.Machine

/-- GAMMA, generator A's increment (R9). -/
def gamma : Word := 0x9e3779b97f4a7c15#64

/-- MIX_M1 (R9). -/
def mixM1 : Word := 0xbf58476d1ce4e5b9#64

/-- MIX_M2 (R9). -/
def mixM2 : Word := 0x94d049bb133111eb#64

/-- MIN, hardwired (R30). -/
def minValue : Word := 0x0000000000000000#64

/-- MAX, hardwired (R31). -/
def maxValue : Word := 0xffffffffffffffff#64

/-- Rotate left by `k` bits, for 0 < k < 64 (R13). The spec defines no other amount, so the function takes none. -/
def rotl64 (x : Word) (k : Nat) (_inRange : 0 < k ∧ k < 64) : Word := (x <<< k) ||| (x >>> (64 - k))

/-- One xor-shift `z ^ (z >> k)`. -/
def xorShift (k : Nat) (z : Word) : Word := z ^^^ (z >>> k)

/-- The mix function: steps 3 to 5 of generator A (R59). -/
def mix64 (z : Word) : Word := xorShift 31 (xorShift 27 (xorShift 30 z * mixM1) * mixM2)

/-- One step of generator A on a register that holds `a`: the new content and the output, which is computed from the
content AFTER the addition (R62 steps 1 to 6). A.NEXT applies it to A_STATE, the expansion engine to E_STATE (R71). -/
def aStep (a : Word) : Word × Word := (a + gamma, mix64 (a + gamma))

/-- The output scramble of generator B; it reads s1 alone (R65). -/
def scr (s1 : Word) : Word := rotl64 (s1 * 5#64) 7 (by decide) * 9#64

/-- The state advance of generator B, steps 2 to 8, each reading what the steps before it left (R66). -/
def adv (b : BState) : BState :=
  let t := b.s1 <<< 17
  let s2 := b.s2 ^^^ b.s0
  let s3 := b.s3 ^^^ b.s1
  let s1 := b.s1 ^^^ s2
  let s0 := b.s0 ^^^ s3
  let s2 := s2 ^^^ t
  let s3 := rotl64 s3 45 (by decide)
  ⟨s0, s1, s2, s3⟩

/-- R60: `z ^ (z >> k)` is undone by `y ^ (y >> k) ^ (y >> 2k) ^ …`. The multiples of k that reach 64 contribute 0. -/
def unXorShift (k : Nat) (y : Word) : Word :=
  (List.range 64).foldl (fun acc j => acc ^^^ (y >>> (j * k))) 0#64

/-- The inverse of mix64 that R60 describes, with R60's inverse constants. -/
def mix64Inv (y : Word) : Word :=
  unXorShift 30 (unXorShift 27 (unXorShift 31 y * 0x319642b2d24d8ec3#64) * 0x96de1b173f119089#64)

/-- The inverse of adv (R67). -/
def advInv (a : BState) : BState :=
  let m3 := rotl64 a.s3 19 (by decide)
  let s0 := a.s0 ^^^ m3
  let u := a.s1 ^^^ a.s2
  let s1 := u ^^^ (u <<< 17) ^^^ (u <<< 34) ^^^ (u <<< 51)
  let m2 := a.s1 ^^^ s1
  let s2 := m2 ^^^ s0
  let s3 := m3 ^^^ s1
  ⟨s0, s1, s2, s3⟩

end Sys2Proof.Machine
end

