-- ==== Sys2Proof/Machine/Operands.lean ====
section
/-! DEFINITION. Operand forms. The core has two: the 64-bit operand, taken whole as the seed (30_encoding.md R52; the
instruction carries it), and B.PEEK's 2-bit word index into B_S (R32, R52, R70). -/

namespace Sys2Proof.Machine

/-- B_S[zext(IDX)]: every index 0 to 3 names a word (R70). -/
def BState.word (b : BState) (idx : BitVec 2) : Word :=
  if idx = 0#2 then b.s0
  else if idx = 1#2 then b.s1
  else if idx = 2#2 then b.s2
  else b.s3

/-- `B_S[i] <- v`, the other three words unchanged (R14; only the expansion engine writes single words, R71). -/
def BState.setWord (b : BState) (idx : BitVec 2) (v : Word) : BState :=
  if idx = 0#2 then { b with s0 := v }
  else if idx = 1#2 then { b with s1 := v }
  else if idx = 2#2 then { b with s2 := v }
  else { b with s3 := v }

end Sys2Proof.Machine
end

