-- ==== Sys2Proof/Machine/Ops.lean ====
section
/-! DEFINITION. The shared operations: giving a response, raising an error, the seeded check, one pass of the expansion
engine, reset, and the host's taking of a response.

Raising an error is the core's whole exception mechanism: no pc, mode or status is saved, nothing is entered, and there
is no return from it (60_exceptions.md R85, R88). -/

namespace Sys2Proof.Machine

/-- The outcome of a command: the model's instance of the host's three outcomes. -/
abbrev Result := Host.Outcome State Fault Refusal

/-- `respond(code, data)`: the response goes on the response channel (R14, R50). -/
def respond (code : RspCode) (data : Word) (s : State) : State := { s with rsp := some ⟨code, data⟩ }

/-- `raise ILLEGAL` and `raise UNSEEDED`: set the one sticky bit, respond with the code and data 0, and nothing else
(R85). -/
def raise (c : ErrorCause) (s : State) : State := respond c.code 0 (setSticky c s)

/-- The guard of A.NEXT, A.PEEK, B.NEXT and B.PEEK: `if flag == 0: raise UNSEEDED`, else the command's own effect
(R83). -/
def whenSeeded (seeded : Bool) (effect : State) (s : State) : Result :=
  if seeded then .next effect else .next (raise .unseeded s)

/-- The registers the expansion engine writes: E_STATE and B_S (R71). -/
structure Engine where
  eState : Word
  bS : BState
deriving DecidableEq, Repr

/-- One pass of the expansion loop: one A step on E_STATE, whose output becomes B_S[i] (R71). -/
def expandPass (i : BitVec 2) (e : Engine) : Engine :=
  ⟨(aStep e.eState).1, e.bS.setWord i (aStep e.eState).2⟩

/-- The expansion: the seed into E_STATE, then exactly four passes, in order 0, 1, 2, 3, over the B_S there was (R71). -/
def expand (seed : Word) (b : BState) : Engine :=
  expandPass 3#2 (expandPass 2#2 (expandPass 1#2 (expandPass 0#2 ⟨seed, b⟩)))

/-- RESET (R95, R97): the flags become 0, a response not yet taken is dropped, and the six generator words are left
with no value: each gets a free value, by the next number of this core's own counter (log entry 2). Two cores whose
counters are equal therefore get equal values, of which the spec says nothing (log entry 17, DESIGN CHOICE,
unsafe). What the host does next and what it has taken are not the core's, and stay. -/
def applyReset (s : State) : State :=
  { s with
    aState := Config.noValue s.draws
    bS := ⟨Config.noValue (s.draws + 1), Config.noValue (s.draws + 2), Config.noValue (s.draws + 3),
      Config.noValue (s.draws + 4)⟩
    eState := Config.noValue (s.draws + 5)
    aSeeded := false
    bSeeded := false
    errIll := false
    errUns := false
    rsp := none
    draws := s.draws + 6 }

/-- The host takes the response on offer, if there is one; the core is then ready for the next command (R50). -/
def takeResponse (s : State) : State := { s with rsp := none, taken := s.taken ++ s.rsp.toList }

/-- Puts a table word's request in front of everything else the host does, with the response channel free, so that the
core accepts it at once (R50; log entry 3). -/
def placeRequest (r : Request) (s : State) : State := { takeResponse s with host := .command r :: s.host }

end Sys2Proof.Machine
end

