-- ==== Sys2Proof/Machine/GeneratorA.lean ====
section
/-! DEFINITION. Generator A: A.SEED, A.NEXT, A.PEEK (40_generator_a.md). -/

namespace Sys2Proof.Machine

/-- A.SEED (R61): A_STATE <- seed, A_SEEDED <- 1, respond (OK, 0). Legal in every state. -/
def execASeed (seed : Word) (s : State) : Result :=
  .next (respond .ok 0 { s with aState := seed, aSeeded := true })

/-- A.NEXT (R62): UNSEEDED unless A_SEEDED; else add GAMMA to A_STATE and respond with the mix of the NEW A_STATE. -/
def execANext (s : State) : Result :=
  whenSeeded s.aSeeded (respond .ok (aStep s.aState).2 { s with aState := (aStep s.aState).1 }) s

/-- A.PEEK (R64): UNSEEDED unless A_SEEDED; else respond with A_STATE and change nothing. -/
def execAPeek (s : State) : Result := whenSeeded s.aSeeded (respond .ok s.aState s) s

end Sys2Proof.Machine
end

