-- ==== Sys2Proof/Machine/GeneratorB.lean ====
section
/-! DEFINITION. Generator B: B.NEXT, B.PEEK (41_generator_b.md). -/

namespace Sys2Proof.Machine

/-- B.NEXT (R69): UNSEEDED unless B_SEEDED; else respond with the scramble of the PRE-update B_S[1] and advance B_S. -/
def execBNext (s : State) : Result :=
  whenSeeded s.bSeeded (respond .ok (scr s.bS.s1) { s with bS := adv s.bS }) s

/-- B.PEEK (R70): UNSEEDED unless B_SEEDED; else respond with B_S[IDX] and change nothing. -/
def execBPeek (idx : BitVec 2) (s : State) : Result :=
  whenSeeded s.bSeeded (respond .ok (s.bS.word idx) s) s

end Sys2Proof.Machine
end

