-- ==== Sys2Proof/Machine/Interface.lean ====
section
/-! DEFINITION. Range constants and status commands: RD.MIN, RD.MAX, RD.STATUS, CLR.STATUS (43_interface.md). All four are
legal in every state. -/

namespace Sys2Proof.Machine

/-- RD.MIN (R77): respond (OK, MIN). -/
def execRdMin (s : State) : Result := .next (respond .ok minValue s)

/-- RD.MAX (R78): respond (OK, MAX). -/
def execRdMax (s : State) : Result := .next (respond .ok maxValue s)

/-- RD.STATUS (R79): respond (OK, STATUS); reading does not clear the sticky bits. -/
def execRdStatus (s : State) : Result := .next (respond .ok s.status s)

/-- CLR.STATUS (R80): ERR_ILL <- 0, ERR_UNS <- 0, respond (OK, 0). -/
def execClrStatus (s : State) : Result := .next (respond .ok 0 (clearSticky s))

end Sys2Proof.Machine
end

