-- ==== Sys2Proof/Machine/SeedExpansion.lean ====
section
/-! DEFINITION. The seed-expansion engine: B.SEED (42_seed_expansion.md). -/

namespace Sys2Proof.Machine

/-- B.SEED (R71): expand the seed into B_S through E_STATE, B_SEEDED <- 1, respond (OK, 0). One indivisible step (R73),
legal in every state; it touches neither A_STATE nor A_SEEDED (R72). -/
def execBSeed (seed : Word) (s : State) : Result :=
  .next (respond .ok 0 { s with
    eState := (expand seed s.bS).eState
    bS := (expand seed s.bS).bS
    bSeeded := true })

end Sys2Proof.Machine
end

