-- ==== Sys2Proof/Machine/Dispatch.lean ====
section
/-! DEFINITION. One arm per instruction, in the order of spec/opcode_table.json. -/

namespace Sys2Proof.Machine

def exec (i : Instr) (s : State) : Host.Outcome State Fault Refusal :=
  match i with
  | .aSeed seed => Sys2Proof.Machine.execASeed seed s
  | .aNext => Sys2Proof.Machine.execANext s
  | .aPeek => Sys2Proof.Machine.execAPeek s
  | .bSeed seed => Sys2Proof.Machine.execBSeed seed s
  | .bNext => Sys2Proof.Machine.execBNext s
  | .bPeek idx => Sys2Proof.Machine.execBPeek idx s
  | .rdMin => Sys2Proof.Machine.execRdMin s
  | .rdMax => Sys2Proof.Machine.execRdMax s
  | .rdStatus => Sys2Proof.Machine.execRdStatus s
  | .clrStatus => Sys2Proof.Machine.execClrStatus s

end Sys2Proof.Machine
end

