-- ==== Sys2Proof/Machine/Input.lean ====
section
/-! DEFINITION. What the core does with the host's next action (30_encoding.md R50, R54; 60_exceptions.md R82, R90;
70_reset_and_hazards.md R95, R96). -/

namespace Sys2Proof.Machine

/-- Carries out an accepted command: decode it, then run it, or give the ILLEGAL response if it decodes to nothing. The
word is decoded before anything else, so ILLEGAL comes before UNSEEDED (R84). -/
def carryOut (r : Request) (s : State) : Result :=
  match r.decode with
  | some i => exec i s
  | none => .next (raise .illegal s)

/-- Whether the host's action needs REQ_READY = 1: only a command does (R50). -/
def HostInput.needsReady : HostInput → Bool
  | .command _ => true
  | .cutCommand _ => true
  | .take => false
  | .reset => false

/-- One host action, taken off the host's script already. A command cut off by reset leaves the reset state and gives no
response, whatever part of it had run (R96; log entry 10). -/
def handle (inp : HostInput) (s : State) : Result :=
  match inp with
  | .command r => carryOut r s
  | .take => .next (takeResponse s)
  | .reset => .next (applyReset s)
  | .cutCommand _ => .next (applyReset s)

/-- One step of the core and its host. With no action of the host, the core holds its state (R94; log entry 5). While a
response is on offer REQ_READY is 0 and a command waits: the host's duty is to take the response first (R50, R90), and
that is the step (log entry 4). -/
def serveHost (s : State) : Result :=
  match s.host with
  | [] => .next s
  | inp :: rest =>
    if inp.needsReady && !s.reqReady then .next (takeResponse s)
    else handle inp { s with host := rest }

end Sys2Proof.Machine
end

