-- ==== Sys2Proof/Machine/Step.lean ====
section
/-! DEFINITION. One step of the machine, and how a command is put where the next step accepts it. -/

namespace Sys2Proof.Machine

/-- One step: the core serves the host's next action. A command is one atomic step: accept it, carry out its rule, give
its response (30_encoding.md R50). -/
def step (s : State) : Host.Outcome State Fault Refusal := serveHost s

/-- `s` with the table word `w` of `nbits` bits offered on the request channel, so that the next step accepts it (log
entries 3 and 6). -/
def State.withFetchWord (s : State) (nbits w : Nat) : State := placeRequest (requestOfTableWord nbits w) s

end Sys2Proof.Machine
end

