-- ==== Sys2Proof/Machine/Assembler.lean ====
section
/-! DEFINITION. The assembler of 30_encoding.md R57: text to requests. There is no pseudo-instruction (R58). What R57
leaves open of the text form (white space, empty lines, the case of hexadecimal digits) is log entry 8. -/

namespace Sys2Proof.Machine

/-- A line in its abstract form to its command word and operand, or an assembly error (R57). -/
def assembleLine (l : AsmLine) : Option Request :=
  if l.wellFormed then
    some (match l with
      | .aSeed n => ⟨0x00000001#32, BitVec.ofNat 64 n⟩
      | .aNext => ⟨0x00000002#32, 0⟩
      | .aPeek => ⟨0x00000003#32, 0⟩
      | .bSeed n => ⟨0x00000011#32, BitVec.ofNat 64 n⟩
      | .bNext => ⟨0x00000012#32, 0⟩
      | .bPeek i => ⟨0x00000013#32 + (BitVec.ofNat 32 i <<< 8), 0⟩
      | .rdMin => ⟨0x00000021#32, 0⟩
      | .rdMax => ⟨0x00000022#32, 0⟩
      | .rdStatus => ⟨0x00000031#32, 0⟩
      | .clrStatus => ⟨0x00000032#32, 0⟩)
  else none

/-- The value of a decimal digit. -/
def decDigit (c : Char) : Option Nat :=
  if 48 ≤ c.toNat ∧ c.toNat ≤ 57 then some (c.toNat - 48) else none

/-- The value of a hexadecimal digit, in either case (log entry 8). -/
def hexDigit (c : Char) : Option Nat :=
  if 48 ≤ c.toNat ∧ c.toNat ≤ 57 then some (c.toNat - 48)
  else if 97 ≤ c.toNat ∧ c.toNat ≤ 102 then some (c.toNat - 87)
  else if 65 ≤ c.toNat ∧ c.toNat ≤ 70 then some (c.toNat - 55)
  else none

/-- A run of decimal digits, most significant first, read onto `acc`. -/
def readDec : List Char → Nat → Option Nat
  | [], acc => some acc
  | c :: cs, acc =>
    match decDigit c with
    | some d => readDec cs (acc * 10 + d)
    | none => none

/-- A run of hexadecimal digits, most significant first, read onto `acc`. -/
def readHex : List Char → Nat → Option Nat
  | [], acc => some acc
  | c :: cs, acc =>
    match hexDigit c with
    | some d => readHex cs (acc * 16 + d)
    | none => none

/-- 'Literals are decimal or `0x` hexadecimal' (R57): at least one digit. -/
def readLiteral : List Char → Option Nat
  | [] => none
  | '0' :: 'x' :: [] => none
  | '0' :: 'x' :: ds => readHex ds 0
  | ds => readDec ds 0

/-- '`;` starts a comment' (R57). -/
def dropComment : List Char → List Char
  | [] => []
  | c :: cs => if c = ';' then [] else c :: dropComment cs

/-- White space within a line: space, tab, carriage return (log entry 8). -/
def isBlank (c : Char) : Bool := c = ' ' || c = '\t' || c = '\r'

/-- The words of a line. `word` is the word being read, last character first. -/
def splitWords : List Char → List Char → List (List Char)
  | [], word => if word.isEmpty then [] else [word.reverse]
  | c :: cs, word =>
    if isBlank c then
      if word.isEmpty then splitWords cs [] else word.reverse :: splitWords cs []
    else splitWords cs (c :: word)

/-- The lines of a text. `line` is the line being read, last character first. -/
def splitLines : List Char → List Char → List (List Char)
  | [], line => [line.reverse]
  | c :: cs, line => if c = '\n' then line.reverse :: splitLines cs [] else splitLines cs (c :: line)

/-- A mnemonic that takes no operand (R57). -/
def plainMnemonic (w : List Char) : Option AsmLine :=
  if w = ['a', '.', 'n', 'e', 'x', 't'] then some .aNext
  else if w = ['a', '.', 'p', 'e', 'e', 'k'] then some .aPeek
  else if w = ['b', '.', 'n', 'e', 'x', 't'] then some .bNext
  else if w = ['r', 'd', '.', 'm', 'i', 'n'] then some .rdMin
  else if w = ['r', 'd', '.', 'm', 'a', 'x'] then some .rdMax
  else if w = ['r', 'd', '.', 's', 't', 'a', 't', 'u', 's'] then some .rdStatus
  else if w = ['c', 'l', 'r', '.', 's', 't', 'a', 't', 'u', 's'] then some .clrStatus
  else none

/-- A mnemonic that takes an operand, with its operand's value (R57). -/
def operandMnemonic (w : List Char) (n : Nat) : Option AsmLine :=
  if w = ['a', '.', 's', 'e', 'e', 'd'] then some (.aSeed n)
  else if w = ['b', '.', 's', 'e', 'e', 'd'] then some (.bSeed n)
  else if w = ['b', '.', 'p', 'e', 'e', 'k'] then some (.bPeek n)
  else none

/-- The words of a line to its abstract form: 'a mnemonic in lower case, then an operand if the command takes one'
(R57). -/
def readWords : List (List Char) → Option AsmLine
  | [w] => plainMnemonic w
  | [w, operand] =>
    match readLiteral operand with
    | some n => operandMnemonic w n
    | none => none
  | _ => none

/-- One line of text: no request for an empty line, one request for a command, `none` for an assembly error. -/
def assembleText1 (text : List Char) : Option (List Request) :=
  match splitWords (dropComment text) [] with
  | [] => some []
  | ws =>
    match readWords ws with
    | some l => (assembleLine l).map (fun r => [r])
    | none => none

/-- The requests of a list of lines, in order; an error in one line is an error of the whole. -/
def assembleLines : List (List Char) → Option (List Request)
  | [] => some []
  | l :: ls =>
    match assembleText1 l, assembleLines ls with
    | some rs, some rest => some (rs ++ rest)
    | _, _ => none

/-- A whole text, 'one command per line' (R57), to the sequence of requests it stands for. -/
def assemble (text : List Char) : Option (List Request) := assembleLines (splitLines text [])

end Sys2Proof.Machine
end

