-- ==== Sys2Proof/Machine/System.lean ====
section
/-! DEFINITION. A system of N_CORES cores: N_CORES independent copies of one core, with no shared state (20_memory.md R47,
60_exceptions.md R91). Which core steps next is the caller's to say: the cores do not order against each other
(log entry 13). -/

namespace Sys2Proof.Machine

/-- The cores of a system, numbered from 0. -/
abbrev System := List State

/-- A system right after reset: N_CORES cores, each right after reset (R91, R95). That the unseeded registers of two cores
agree there is the model's choice (log entries 1 and 17). -/
def System.reset (p : Config.Params) : System := List.replicate p.nCores State.reset

/-- Core number `k` takes one step and every other core stays as it is. A system has no core of a number it does not
reach, and such a step does nothing (log entry
13). -/
def System.stepCore (k : Nat) (sys : System) : Host.Outcome System Fault Refusal :=
  match sys[k]? with
  | none => .next sys
  | some s =>
    match step s with
    | .next t => .next (sys.set k t)
    | .fault r => .fault r
    | .refused r => .refused r

end Sys2Proof.Machine
end

