-- ==== Sys2Proof/Safety.lean ====
section
/-! DEFINITION. What the claims speak of: the invariant of generator B, runs, command sequences, and what a host can
observe of a core. -/

namespace Sys2Proof.Machine

/-- The source's invariant (10_state.md R22): a seeded generator B does not hold the all-zero vector. -/
abbrev NonZeroB (s : State) : Prop := s.bSeeded = true → s.bS ≠ BState.zero

/-- A state some run from reset reaches, whatever the host does (R101). -/
def Reachable (s : State) : Prop :=
  ∃ (inputs : List HostInput) (n : Nat), Host.Core.run core n { State.reset with host := inputs } = .next s

/-- Two cores a host cannot tell apart by any command (10_state.md R36): the flags and the channels agree, A_STATE
agrees where it is seeded, B_S agrees where it is seeded; E_STATE (R23) and the counter of free values are left out. -/
structure ObsEq (s t : State) : Prop where
  aSeeded : s.aSeeded = t.aSeeded
  bSeeded : s.bSeeded = t.bSeeded
  errIll : s.errIll = t.errIll
  errUns : s.errUns = t.errUns
  host : s.host = t.host
  rsp : s.rsp = t.rsp
  taken : s.taken = t.taken
  aState : s.aSeeded = true → s.aState = t.aState
  bS : s.bSeeded = true → s.bS = t.bS

/-- The sequential meaning of a command sequence: each command is carried out and its response taken before the next
(20_memory.md R45). -/
def serveAll : List Request → State → Result
  | [], s => .next s
  | r :: rs, s =>
    match carryOut r s with
    | .next t => serveAll rs (takeResponse t)
    | .fault f => .fault f
    | .refused f => .refused f

/-- What a host that keeps its duties does to issue a sequence: offer each command, then take its response (R90). -/
def scriptOf (rs : List Request) : List HostInput := rs.flatMap (fun r => [.command r, .take])

/-- One instruction carried out `n` times in a row. -/
def repeatExec (i : Instr) : Nat → State → Result
  | 0, s => .next s
  | n + 1, s =>
    match exec i s with
    | .next t => repeatExec i n t
    | .fault f => .fault f
    | .refused f => .refused f

/-- The command does not raise UNSEEDED in `s` (60_exceptions.md R83). -/
abbrev ready (i : Instr) (s : State) : Prop :=
  match i with
  | .aNext => s.aSeeded = true
  | .aPeek => s.aSeeded = true
  | .bNext => s.bSeeded = true
  | .bPeek _ => s.bSeeded = true
  | .aSeed _ => True
  | .bSeed _ => True
  | .rdMin => True
  | .rdMax => True
  | .rdStatus => True
  | .clrStatus => True

/-- The instruction's operands are the ones the command word and the operand give it: the seed is the whole operand
(30_encoding.md R52), the index is the IDX field (R51). -/
abbrev carries (i : Instr) (c : CmdWord) (o : Word) : Prop :=
  match i with
  | .aSeed seed => seed = o
  | .bSeed seed => seed = o
  | .bPeek idx => idx = idxField c
  | .aNext => True
  | .aPeek => True
  | .bNext => True
  | .rdMin => True
  | .rdMax => True
  | .rdStatus => True
  | .clrStatus => True

/-- The instruction a line of assembly stands for (30_encoding.md R57). -/
def instrOfLine : AsmLine → Instr
  | .aSeed n => .aSeed (BitVec.ofNat 64 n)
  | .aNext => .aNext
  | .aPeek => .aPeek
  | .bSeed n => .bSeed (BitVec.ofNat 64 n)
  | .bNext => .bNext
  | .bPeek i => .bPeek (BitVec.ofNat 2 i)
  | .rdMin => .rdMin
  | .rdMax => .rdMax
  | .rdStatus => .rdStatus
  | .clrStatus => .clrStatus

end Sys2Proof.Machine
end

