-- ==== Sys2Proof/Certificates/Slice0/Obligations.lean ====
section
/-! DEFINITION. The statements for the provers. Each docstring names the rules of spec/ the statement formalises; a clause
that rests on a choice of the model names its log entry. -/

open Sys2Proof Sys2Proof.Machine

/-- Words written out from the spec decode to the operations it names (30_encoding.md R53, 95_test_vectors.md, Decode
family). -/
def Obligations.DecodeOfTheSpecsWords : Prop :=
  ∀ o : Word,
    decode 0x00000001#32 o = some (.aSeed o) ∧
    decode 0x00000012#32 o = some .bNext ∧
    decode 0x00000011#32 o = some (.bSeed o) ∧
    decode 0x00000113#32 o = some (.bPeek 1#2) ∧
    decode 0x00000313#32 o = some (.bPeek 3#2) ∧
    decode 0x00000032#32 o = some .clrStatus ∧
    decode 0x00000000#32 o = none ∧
    decode 0x00000112#32 o = none ∧
    decode 0x00000413#32 o = none ∧
    decode 0x80000001#32 o = none

/-- Decoding the encoding of any well-formed instruction gives it back (30_encoding.md R51, 30_encoding.md R52,
30_encoding.md R53, 30_encoding.md R54). -/
def Obligations.DecodeOfEncode : Prop :=
  ∀ i : Instr, i.wellFormed = true → decode (encode i).cmd (encode i).operand = some i

/-- A word that decodes is the word its instruction encodes to (30_encoding.md R51, 30_encoding.md R53, 30_encoding.md
R54). -/
def Obligations.EncodeOfDecode : Prop :=
  ∀ (c : CmdWord) (o : Word) (i : Instr), decode c o = some i →
    (encode i).cmd = c ∧
    (encode i).operand = if c = 0x00000001#32 ∨ c = 0x00000011#32 then o else 0

/-- A word decodes to an operation exactly when it meets that operation's match and mask (R53). -/
def Obligations.DecodeIsTheMatchAndMaskTable : Prop :=
  ∀ (c : CmdWord) (o : Word) (i : Instr),
    decode c o = some i ↔ (c &&& i.maskBits = i.matchBits ∧ carries i c o)

/-- Exactly 13 command words are legal, by R55's conditions and by the list (R55). -/
def Obligations.ExactlyThirteenLegalWords : Prop :=
  (∀ (c : CmdWord) (o : Word), decode c o = none ↔
    (rsvField c ≠ 0#22 ∨
     opField c ∉ [0x01#8, 0x02#8, 0x03#8, 0x11#8, 0x12#8, 0x13#8, 0x21#8, 0x22#8, 0x31#8, 0x32#8] ∨
     (idxField c ≠ 0#2 ∧ opField c ≠ 0x13#8))) ∧
  (∀ (c : CmdWord) (o : Word), (decode c o).isSome = true ↔
    c ∈ [0x00000001#32, 0x00000002#32, 0x00000003#32, 0x00000011#32, 0x00000012#32, 0x00000013#32, 0x00000113#32,
         0x00000213#32, 0x00000313#32, 0x00000021#32, 0x00000022#32, 0x00000031#32, 0x00000032#32])

/-- Only A.SEED and B.SEED read REQ_OPERAND; for every other word it changes nothing (R52). -/
def Obligations.OperandOnlyReachesTheSeedingCommands : Prop :=
  (∀ o : Word, decode 0x00000001#32 o = some (.aSeed o) ∧ decode 0x00000011#32 o = some (.bSeed o)) ∧
  (∀ (c : CmdWord) (o o' : Word) (s : State), c ≠ 0x00000001#32 → c ≠ 0x00000011#32 →
    carryOut ⟨c, o⟩ s = carryOut ⟨c, o'⟩ s) ∧
  (∀ (b : BState) (idx : BitVec 2), b.word idx = [b.s0, b.s1, b.s2, b.s3].getD idx.toNat 0)

/-- Each assembly line gives the command word and operand of R57's table (30_encoding.md R57). -/
def Obligations.AssemblerTable : Prop :=
  (∀ n, n < 2 ^ 64 → assembleLine (.aSeed n) = some ⟨0x00000001#32, BitVec.ofNat 64 n⟩ ∧
    assembleLine (.bSeed n) = some ⟨0x00000011#32, BitVec.ofNat 64 n⟩) ∧
  (∀ n, 2 ^ 64 ≤ n → assembleLine (.aSeed n) = none ∧ assembleLine (.bSeed n) = none) ∧
  assembleLine (.bPeek 0) = some ⟨0x00000013#32, 0⟩ ∧ assembleLine (.bPeek 1) = some ⟨0x00000113#32, 0⟩ ∧
  assembleLine (.bPeek 2) = some ⟨0x00000213#32, 0⟩ ∧ assembleLine (.bPeek 3) = some ⟨0x00000313#32, 0⟩ ∧
  (∀ n, 4 ≤ n → assembleLine (.bPeek n) = none) ∧
  assembleLine .aNext = some ⟨0x00000002#32, 0⟩ ∧ assembleLine .aPeek = some ⟨0x00000003#32, 0⟩ ∧
  assembleLine .bNext = some ⟨0x00000012#32, 0⟩ ∧ assembleLine .rdMin = some ⟨0x00000021#32, 0⟩ ∧
  assembleLine .rdMax = some ⟨0x00000022#32, 0⟩ ∧ assembleLine .rdStatus = some ⟨0x00000031#32, 0⟩ ∧
  assembleLine .clrStatus = some ⟨0x00000032#32, 0⟩

/-- The assembler and the encoder agree, and so an assembled line is a legal command (30_encoding.md R51, 30_encoding.md
R57). -/
def Obligations.AssembledLineIsTheEncoding : Prop :=
  ∀ l : AsmLine,
    (l.wellFormed = true → assembleLine l = some (encode (instrOfLine l)) ∧
      (encode (instrOfLine l)).decode = some (instrOfLine l)) ∧
    (l.wellFormed = false → assembleLine l = none)

/-- a.seed with the decimal text of n assembles to A.SEED with operand n, or is an error (30_encoding.md R57). The space
between mnemonic and literal is the model's choice of white space (log entry 8, DESIGN CHOICE). -/
def Obligations.DecimalLiteralsAreReadExactly : Prop :=
  ∀ n : Nat,
    (n < 2 ^ 64 → assemble (['a', '.', 's', 'e', 'e', 'd', ' '] ++ Nat.toDigits 10 n) =
      some [⟨0x00000001#32, BitVec.ofNat 64 n⟩]) ∧
    (2 ^ 64 ≤ n → assemble (['a', '.', 's', 'e', 'e', 'd', ' '] ++ Nat.toDigits 10 n) = none)

/-- A comment after a line of assembly does not change what it assembles to (30_encoding.md R57). What a line is, in
text, is the model's choice (log entry 8, DESIGN CHOICE). -/
def Obligations.CommentsMeanNothing : Prop :=
  ∀ line comment : List Char, '\n' ∉ line → '\n' ∉ comment →
    assemble (line ++ ';' :: comment) = assemble line

/-- A step runs the command the request decodes to (30_encoding.md R50, 30_encoding.md R54). The host's script and the
response channel in State are the model's form of R49 and R50 (log entries 3 and 4, DESIGN CHOICE). -/
def Obligations.StepRunsTheDecodedCommand : Prop :=
  ∀ (s : State) (r : Request) (rest : List HostInput) (i : Instr),
    s.host = .command r :: rest → s.rsp = none → i.wellFormed = true → decode r.cmd r.operand = some i →
    step s = exec i { s with host := rest }

/-- Every illegal word sets ERR_ILL, responds (ILLEGAL, 0), and changes nothing else (R82). The host's script and the
response channel in State are the model's form of the ports (log entries 3 and 4); the rule itself is R82's. -/
def Obligations.IllegalWordGetsTheIllegalResponse : Prop :=
  ∀ (s : State) (r : Request) (rest : List HostInput),
    s.host = .command r :: rest → s.rsp = none →
    (rsvField r.cmd ≠ 0#22 ∨
     opField r.cmd ∉ [0x01#8, 0x02#8, 0x03#8, 0x11#8, 0x12#8, 0x13#8, 0x21#8, 0x22#8, 0x31#8, 0x32#8] ∨
     (idxField r.cmd ≠ 0#2 ∧ opField r.cmd ≠ 0x13#8)) →
    step s = .next { s with host := rest, errIll := true, rsp := some ⟨.illegal, 0⟩ }

/-- An illegal word gets ILLEGAL and not UNSEEDED, even while the generator is unseeded (R84). -/
def Obligations.IllegalBeforeUnseeded : Prop :=
  (∀ (r : Request) (s : State), decode r.cmd r.operand = none →
    carryOut r s = .next { s with errIll := true, rsp := some ⟨.illegal, 0⟩ }) ∧
  (∀ (o : Word) (s : State), s.bSeeded = false →
    carryOut ⟨0x00000112#32, o⟩ s = .next { s with errIll := true, rsp := some ⟨.illegal, 0⟩ })

/-- Every accepted command gets exactly one response, in the same step (30_encoding.md R50, 60_exceptions.md R81). The
host's script and the record of responses are the model's form of the ports (log entries 3 and 4, DESIGN CHOICE). -/
def Obligations.OneResponsePerCommand : Prop :=
  ∀ (s : State) (r : Request) (rest : List HostInput), s.host = .command r :: rest → s.rsp = none →
    ∃ t p, step s = .next t ∧ t.rsp = some p ∧ t.host = rest ∧ t.taken = s.taken ∧ t.reqReady = false

/-- While a response is on offer a command waits; the model's step then takes the response (log entry 4, DESIGN CHOICE)
(30_encoding.md R50, 60_exceptions.md R90). That no command is accepted is R50's, and that the host must take the
response is R90's; that the STEP takes it for the host is the model's choice (log entry 4, DESIGN CHOICE). -/
def Obligations.CommandWaitsForTheResponseToBeTaken : Prop :=
  ∀ (s : State) (inp : HostInput) (rest : List HostInput) (p : Response),
    s.host = inp :: rest → inp.needsReady = true → s.rsp = some p →
    step s = .next { s with rsp := none, taken := s.taken ++ [p] }

/-- With no action of the host the core holds its state; the idle step is the model's (log entry 5) (60_exceptions.md
R94). R94 says that the core holds its state and that no command means no step; that a step exists there and answers
the same state is the model's form (log entry 5, DEDUCED). -/
def Obligations.IdleCoreHoldsItsState : Prop :=
  ∀ s : State, s.host = [] → step s = .next s

/-- Every step of every state answers a next state, idle and waiting steps included (log entries 4, 5, 14)
(60_exceptions.md R85, 60_exceptions.md R86, 60_exceptions.md R88). R85, R86 and R88 speak of commands; the idle
step (log entry 5, DEDUCED), the step at a waiting command (log entry 4, DESIGN CHOICE) and the absence of faults
and refusals (log entry 14, DEDUCED) are the model's. -/
def Obligations.EveryStepAnswersANextState : Prop :=
  ∀ s : State, ∃ t, step s = .next t

/-- A run of the machine on a command sequence is its rules run one after another (R45). The host's script and the steps
that take responses are the model's form of the ports (log entries 3 and 4); the order is R45's. -/
def Obligations.SequencesRunInAcceptanceOrder : Prop :=
  ∀ (rs : List Request) (s : State), s.rsp = none →
    Host.Core.run core (2 * rs.length) { s with host := scriptOf rs ++ s.host } = serveAll rs s

/-- Right after reset the four flags and STATUS are 0 and the core is ready for a command (10_state.md R35,
70_reset_and_hazards.md R95). That REQ_READY is a view of the response channel is the model's form (log entry 4,
DESIGN CHOICE). -/
def Obligations.ResetStateFlags : Prop :=
  State.reset.aSeeded = false ∧ State.reset.bSeeded = false ∧ State.reset.errIll = false ∧
  State.reset.errUns = false ∧ State.reset.status = 0 ∧ State.reset.rsp = none ∧ State.reset.reqReady = true

/-- RESET at any time clears the four flags and drops a response not yet taken (70_reset_and_hazards.md R95, 10_state.md
R35). The six generator words take free values there (log entry 2, DESIGN CHOICE). -/
def Obligations.ResetInputClearsTheFlags : Prop :=
  ∀ (s : State) (rest : List HostInput), s.host = .reset :: rest →
    ∃ t, step s = .next t ∧ t.aSeeded = false ∧ t.bSeeded = false ∧ t.errIll = false ∧ t.errUns = false ∧
      t.status = 0 ∧ t.rsp = none ∧ t.reqReady = true ∧ t.taken = s.taken ∧ t.host = rest

/-- A command cut off by RESET gets no response and leaves the reset state, whatever part ran (log entries 2 and 10)
(70_reset_and_hazards.md R96, 70_reset_and_hazards.md R95). That a command cut off is one action of the host is the
model's form (log entry 10, DEDUCED), and that both states draw the same free values, so that t is one state, rests
on the model's numbering of them (log entry 2, DESIGN CHOICE). -/
def Obligations.CommandCutByResetLeavesNothing : Prop :=
  ∀ (s u : State) (r : Request) (rest : List HostInput),
    s.host = .cutCommand r :: rest → s.rsp = none →
    u.host = s.host → u.rsp = none → u.taken = s.taken → u.draws = s.draws →
    ∃ t, step s = .next t ∧ step u = .next t ∧ step { s with host := .reset :: rest } = .next t ∧
      t.aSeeded = false ∧ t.bSeeded = false ∧ t.errIll = false ∧ t.errUns = false ∧
      t.rsp = none ∧ t.taken = s.taken ∧ t.host = rest

/-- A.SEED stores the seed, sets A_SEEDED and responds (OK, 0), in every state (R61). -/
def Obligations.ASeedLoadsTheSeed : Prop :=
  ∀ (seed : Word) (s : State),
    decode 0x00000001#32 seed = some (.aSeed seed) ∧
    exec (.aSeed seed) s = .next { s with aState := seed, aSeeded := true, rsp := some ⟨.ok, 0⟩ }

/-- A.NEXT adds GAMMA to A_STATE and responds with the mix of the new state, or UNSEEDED (R62). -/
def Obligations.ANextAdvancesAndMixesTheNewState : Prop :=
  ∀ s : State,
    (∀ o : Word, decode 0x00000002#32 o = some .aNext) ∧
    (s.aSeeded = true → exec .aNext s = .next { s with
      aState := s.aState + 0x9e3779b97f4a7c15#64
      rsp := some ⟨.ok, mix64 (s.aState + 0x9e3779b97f4a7c15#64)⟩ }) ∧
    (s.aSeeded = false → exec .aNext s = .next { s with errUns := true, rsp := some ⟨.unseeded, 0⟩ })

/-- A.PEEK responds with A_STATE and changes nothing, or UNSEEDED; a host can save and restore A (R64). -/
def Obligations.APeekShowsTheStateAndChangesNothing : Prop :=
  ∀ s : State,
    (∀ o : Word, decode 0x00000003#32 o = some .aPeek) ∧
    (s.aSeeded = true → ∃ t v, exec .aPeek s = .next t ∧ t = { s with rsp := some ⟨.ok, s.aState⟩ } ∧
      t.rsp = some ⟨.ok, v⟩ ∧
      exec (.aSeed v) t = .next { s with rsp := some ⟨.ok, 0⟩ }) ∧
    (s.aSeeded = false → exec .aPeek s = .next { s with errUns := true, rsp := some ⟨.unseeded, 0⟩ })

/-- B.SEED fills B_S with mix64(seed + (i + 1)·GAMMA), sets B_SEEDED and responds (OK, 0) (R71). -/
def Obligations.BSeedExpandsTheSeed : Prop :=
  ∀ (seed : Word) (s : State),
    decode 0x00000011#32 seed = some (.bSeed seed) ∧
    exec (.bSeed seed) s = .next { s with
      bS := ⟨mix64 (seed + 1#64 * gamma), mix64 (seed + 2#64 * gamma), mix64 (seed + 3#64 * gamma),
        mix64 (seed + 4#64 * gamma)⟩
      eState := seed + 4#64 * gamma
      bSeeded := true
      rsp := some ⟨.ok, 0⟩ }

/-- B.NEXT responds with the scramble of the old B_S[1] and advances B_S, or UNSEEDED (R69). -/
def Obligations.BNextScramblesThenAdvances : Prop :=
  ∀ s : State,
    (∀ o : Word, decode 0x00000012#32 o = some .bNext) ∧
    (s.bSeeded = true → exec .bNext s = .next { s with bS := adv s.bS, rsp := some ⟨.ok, scr s.bS.s1⟩ }) ∧
    (scr s.bS.s1 = 0 ↔ s.bS.s1 = 0) ∧
    (s.bSeeded = false → exec .bNext s = .next { s with errUns := true, rsp := some ⟨.unseeded, 0⟩ })

/-- B.PEEK responds with B_S[IDX] and changes nothing, or UNSEEDED (R70). -/
def Obligations.BPeekShowsOneWordAndChangesNothing : Prop :=
  ∀ s : State,
    (∀ o : Word, decode 0x00000013#32 o = some (.bPeek 0#2) ∧ decode 0x00000113#32 o = some (.bPeek 1#2) ∧
      decode 0x00000213#32 o = some (.bPeek 2#2) ∧ decode 0x00000313#32 o = some (.bPeek 3#2)) ∧
    (s.bSeeded = true →
      exec (.bPeek 0#2) s = .next { s with rsp := some ⟨.ok, s.bS.s0⟩ } ∧
      exec (.bPeek 1#2) s = .next { s with rsp := some ⟨.ok, s.bS.s1⟩ } ∧
      exec (.bPeek 2#2) s = .next { s with rsp := some ⟨.ok, s.bS.s2⟩ } ∧
      exec (.bPeek 3#2) s = .next { s with rsp := some ⟨.ok, s.bS.s3⟩ }) ∧
    (s.bSeeded = false → ∀ idx : BitVec 2,
      exec (.bPeek idx) s = .next { s with errUns := true, rsp := some ⟨.unseeded, 0⟩ })

/-- RD.MIN and RD.MAX respond with 0 and 2^64 − 1 in every state and change nothing (R77, R78). -/
def Obligations.RangeConstantsAreReadInEveryState : Prop :=
  (∀ o : Word, decode 0x00000021#32 o = some .rdMin ∧ decode 0x00000022#32 o = some .rdMax) ∧
  (∀ s : State,
    exec .rdMin s = .next { s with rsp := some ⟨.ok, 0x0000000000000000#64⟩ } ∧
    exec .rdMax s = .next { s with rsp := some ⟨.ok, 0xffffffffffffffff#64⟩ }) ∧
  (∀ w : Word, 0x0000000000000000#64 ≤ w ∧ w ≤ 0xffffffffffffffff#64)

/-- RD.STATUS responds with the four flags packed into bits 3:0 and changes nothing (R79). -/
def Obligations.RdStatusReadsTheFlags : Prop :=
  (∀ o : Word, decode 0x00000031#32 o = some .rdStatus) ∧
  (∀ s : State, exec .rdStatus s = .next { s with rsp := some ⟨.ok,
    (BitVec.ofBool s.errUns ++ BitVec.ofBool s.errIll ++ BitVec.ofBool s.bSeeded ++
      BitVec.ofBool s.aSeeded).setWidth 64⟩ }) ∧
  exec .rdStatus State.reset = .next { State.reset with rsp := some ⟨.ok, 0⟩ }

/-- STATUS bit 0 is A_SEEDED, 1 B_SEEDED, 2 ERR_ILL, 3 ERR_UNS, and bits 63:4 read 0 (10_state.md R26, 10_state.md R29). -/
def Obligations.StatusBitLayout : Prop :=
  ∀ s : State,
    s.status.getLsbD 0 = s.aSeeded ∧ s.status.getLsbD 1 = s.bSeeded ∧ s.status.getLsbD 2 = s.errIll ∧
    s.status.getLsbD 3 = s.errUns ∧ (∀ n, 4 ≤ n → s.status.getLsbD n = false)

/-- CLR.STATUS clears ERR_ILL and ERR_UNS, responds (OK, 0), and unseeds nothing (R80). -/
def Obligations.ClrStatusClearsTheStickyBits : Prop :=
  (∀ o : Word, decode 0x00000032#32 o = some .clrStatus) ∧
  (∀ s : State, exec .clrStatus s = .next { s with errIll := false, errUns := false, rsp := some ⟨.ok, 0⟩ })

/-- Every legal command whose generator is seeded responds OK, for every operand and state (60_exceptions.md R86,
60_exceptions.md R83). -/
def Obligations.LegalCommandsOnSeededGeneratorsSucceed : Prop :=
  ∀ (i : Instr) (s : State), ready i s → ∃ t d, exec i s = .next t ∧ t.rsp = some ⟨.ok, d⟩

/-- UNSEEDED is given for A.NEXT and A.PEEK while A is unseeded, B.NEXT and B.PEEK while B is, and never else (R83). -/
def Obligations.UnseededInExactlyFourCases : Prop :=
  ∀ (i : Instr) (s : State), ∃ t, exec i s = .next t ∧
    ((∃ d, t.rsp = some ⟨.unseeded, d⟩) ↔
      ((i = .aNext ∨ i = .aPeek) ∧ s.aSeeded = false) ∨
      ((i = .bNext ∨ ∃ idx, i = .bPeek idx) ∧ s.bSeeded = false))

/-- After an error response the state is the state before with one sticky bit set (R85). -/
def Obligations.ErrorsArePrecise : Prop :=
  ∀ (r : Request) (s : State), ∃ t p, carryOut r s = .next t ∧ t.rsp = some p ∧
    (p.code = .illegal → t = { s with errIll := true, rsp := some ⟨.illegal, 0⟩ }) ∧
    (p.code = .unseeded → t = { s with errUns := true, rsp := some ⟨.unseeded, 0⟩ }) ∧
    (takeResponse t).reqReady = true

/-- OK is 0, ILLEGAL is 1, UNSEEDED is 2, and no response carries code 3 (R81). -/
def Obligations.ResponseCodesAndNoCodeThree : Prop :=
  RspCode.ok.bits = 0#2 ∧ RspCode.illegal.bits = 1#2 ∧ RspCode.unseeded.bits = 2#2 ∧
  (∀ c : RspCode, c.bits ≠ 3#2)

/-- ERR_ILL and ERR_UNS: set by their response, cleared by CLR.STATUS and reset, kept by all else (R27, R28). -/
def Obligations.StickyBitWriters : Prop :=
  (∀ (r : Request) (s : State), ∃ t p, carryOut r s = .next t ∧ t.rsp = some p ∧
    t.errIll = (if p.code = .illegal then true else if decode r.cmd r.operand = some .clrStatus then false
      else s.errIll) ∧
    t.errUns = (if p.code = .unseeded then true else if decode r.cmd r.operand = some .clrStatus then false
      else s.errUns)) ∧
  (∀ s : State, (applyReset s).errIll = false ∧ (applyReset s).errUns = false)

/-- A_SEEDED and B_SEEDED are 1 exactly when A.SEED and B.SEED have completed since reset (10_state.md R24, 10_state.md
R25, 42_seed_expansion.md R76). -/
def Obligations.SeededFlagsRecordTheSeedings : Prop :=
  ∀ (rs : List Request) (s : State), s.aSeeded = false → s.bSeeded = false →
    ∃ t, serveAll rs s = .next t ∧
      (t.aSeeded = true ↔ ∃ r ∈ rs, ∃ seed, decode r.cmd r.operand = some (.aSeed seed)) ∧
      (t.bSeeded = true ↔ ∃ r ∈ rs, ∃ seed, decode r.cmd r.operand = some (.bSeed seed))

/-- Frame of all instructions: which can change each register and seeded flag (E_STATE: log entry 11) (10_state.md R19,
10_state.md R21, 10_state.md R24, 10_state.md R25, 20_memory.md R37, 60_exceptions.md R85). That E_STATE keeps its
value outside B.SEED is the model's (log entry 11, DEDUCED): the spec calls that value not architectural. That the
script, the record and the counter stay is the model's own (log entries 2, 3, 4). -/
def Obligations.WhoWritesWhat : Prop :=
  ∀ (i : Instr) (s : State), ∃ t, exec i s = .next t ∧
    ((∀ x, i ≠ .aSeed x) → t.aSeeded = s.aSeeded ∧ (i ≠ .aNext → t.aState = s.aState)) ∧
    ((∀ x, i ≠ .bSeed x) → t.bSeeded = s.bSeeded ∧ t.eState = s.eState ∧ (i ≠ .bNext → t.bS = s.bS)) ∧
    (s.aSeeded = true → t.aSeeded = true) ∧ (s.bSeeded = true → t.bSeeded = true) ∧
    t.host = s.host ∧ t.taken = s.taken ∧ t.draws = s.draws

/-- Whatever the word and operand, B_S after a command is unchanged, its advance, or an expansion (30_encoding.md R56,
42_seed_expansion.md R76, 10_state.md R21). -/
def Obligations.NoCommandLoadsRawWordsIntoB : Prop :=
  ∀ (r : Request) (s : State), ∃ t, carryOut r s = .next t ∧
    (t.bS = s.bS ∨ t.bS = adv s.bS ∨
      (r.cmd = 0x00000011#32 ∧ t.bS = ⟨mix64 (r.operand + 1#64 * gamma), mix64 (r.operand + 2#64 * gamma),
        mix64 (r.operand + 3#64 * gamma), mix64 (r.operand + 4#64 * gamma)⟩))

/-- A.SEED and B.SEED are idempotent (20_memory.md R43). -/
def Obligations.SeedingTwiceIsSeedingOnce : Prop :=
  ∀ (seed : Word) (s : State),
    (∃ t, exec (.aSeed seed) s = .next t ∧ exec (.aSeed seed) t = .next t) ∧
    (∃ t, exec (.bSeed seed) s = .next t ∧ exec (.bSeed seed) t = .next t)

/-- rotl64 moves bit i to bit (i + k) mod 64 for every amount 0 < k < 64 (00_scope.md R13, 00_scope.md R15). -/
def Obligations.RotationMovesEveryBit : Prop :=
  ∀ (x : Word) (k i : Nat) (h : 0 < k ∧ k < 64), i < 64 →
    (rotl64 x k h).getLsbD ((i + k) % 64) = x.getLsbD i

/-- mix64 is steps 3 to 5 of the A algorithm, and maps 0 to 0 (R59). -/
def Obligations.MixIsTheThreeSteps : Prop :=
  (∀ z : Word,
    let z3 := (z ^^^ (z >>> 30)) * 0xbf58476d1ce4e5b9#64
    let z4 := (z3 ^^^ (z3 >>> 27)) * 0x94d049bb133111eb#64
    mix64 z = z4 ^^^ (z4 >>> 31)) ∧
  mix64 0 = 0

/-- mix64 is a bijection, undone by R60's inverse; each xor-shift is undone by the sum of its shifts (R60). -/
def Obligations.MixIsABijection : Prop :=
  (∀ z : Word, mix64Inv (mix64 z) = z ∧ mix64 (mix64Inv z) = z) ∧
  (∀ (k : Nat) (z : Word), 1 ≤ k → unXorShift k (xorShift k z) = z ∧ xorShift k (unXorShift k z) = z) ∧
  mixM1 * 0x96de1b173f119089#64 = 1 ∧ mixM2 * 0x319642b2d24d8ec3#64 = 1

/-- scr is rotl(s1·5, 7)·9, maps 0 to 0, and is a bijection (R65). -/
def Obligations.ScrambleIsABijection : Prop :=
  (∀ x : Word, scr x = (((x * 5#64) <<< 7) ||| ((x * 5#64) >>> 57)) * 9#64) ∧
  scr 0 = 0 ∧ (∀ x y : Word, scr x = scr y → x = y) ∧ (∀ y : Word, ∃ x, scr x = y)

/-- adv's four result words in terms of the words before the command (41_generator_b.md R66). -/
def Obligations.AdvanceInClosedForm : Prop :=
  ∀ s0 s1 s2 s3 : Word, adv ⟨s0, s1, s2, s3⟩ =
    ⟨s0 ^^^ (s3 ^^^ s1), s1 ^^^ (s2 ^^^ s0), (s2 ^^^ s0) ^^^ (s1 <<< 17),
      ((s3 ^^^ s1) <<< 45) ||| ((s3 ^^^ s1) >>> 19)⟩

/-- adv is a bijection on 256-bit states, undone by R67's adv_inv (R67). -/
def Obligations.AdvanceIsABijection : Prop :=
  ∀ b : BState, advInv (adv b) = b ∧ adv (advInv b) = b

/-- adv fixes the all-zero state and maps every other state to a non-zero one; so do repeated B.NEXTs (41_generator_b.md
R68). -/
def Obligations.AdvanceKeepsNonZero : Prop :=
  adv BState.zero = BState.zero ∧ (∀ b : BState, b ≠ BState.zero → adv b ≠ BState.zero) ∧
  (∀ (n : Nat) (s : State), s.bSeeded = true → s.bS ≠ BState.zero →
    ∃ t, repeatExec .bNext n s = .next t ∧ t.bS ≠ BState.zero) ∧
  (∀ (n : Nat) (s : State), s.bSeeded = true → s.bS = BState.zero →
    ∃ t, repeatExec .bNext (n + 1) s = .next t ∧ t.rsp = some ⟨.ok, 0⟩ ∧ t.bS = BState.zero)

/-- B.SEED's four words are pairwise distinct, so never all zero and at most one of them is 0 (R75). -/
def Obligations.SeedExpansionNeverGivesZero : Prop :=
  ∀ (seed : Word) (s : State), ∃ t, exec (.bSeed seed) s = .next t ∧
    (∀ i j : BitVec 2, i ≠ j → t.bS.word i ≠ t.bS.word j) ∧
    (∀ i j : BitVec 2, t.bS.word i = 0 → t.bS.word j = 0 → i = j) ∧
    t.bS ≠ BState.zero

/-- B_S[i] after B.SEED s is the (i+1)-th A.NEXT response after A.SEED s (R74). -/
def Obligations.SeedExpansionIsFourOutputsOfA : Prop :=
  ∀ (seed : Word) (s : State), ∃ t a, exec (.bSeed seed) s = .next t ∧ exec (.aSeed seed) s = .next a ∧
    ∀ idx : BitVec 2, ∃ u, repeatExec .aNext (idx.toNat + 1) a = .next u ∧
      u.rsp = some ⟨.ok, t.bS.word idx⟩

/-- After A.SEED the states and outputs of 2^64 A.NEXTs are pairwise distinct, and the state then returns (R63). -/
def Obligations.TwoToTheSixtyFourDistinctOutputs : Prop :=
  ∀ (seed : Word) (s0 : State), ∃ s, exec (.aSeed seed) s0 = .next s ∧
    (∀ k : Nat, ∃ t, repeatExec .aNext k s = .next t ∧ t.aState = seed + BitVec.ofNat 64 k * gamma ∧
      (1 ≤ k → t.rsp = some ⟨.ok, mix64 t.aState⟩)) ∧
    (∀ (j k : Nat) (tj tk : State), 1 ≤ j → j < k → k ≤ 2 ^ 64 →
      repeatExec .aNext j s = .next tj → repeatExec .aNext k s = .next tk →
      tj.aState ≠ tk.aState ∧ tj.rsp ≠ tk.rsp) ∧
    (∀ (k : Nat) (t : State), 1 ≤ k → k ≤ 2 ^ 64 → repeatExec .aNext k s = .next t →
      (t.aState = seed ↔ k = 2 ^ 64))

/-- The invariant of generator B holds right after reset (10_state.md R22, 10_state.md R35). The reset values are the
model's choice (log entry 1, DESIGN CHOICE), and the statement holds for any. -/
def Obligations.ResetMeetsTheNonZeroInvariant : Prop :=
  ∀ (a : Word) (b : BState) (e : Word), NonZeroB { State.reset with aState := a, bS := b, eState := e }

/-- Every step keeps the invariant that a seeded generator B is not all zero (10_state.md R22, 41_generator_b.md R68,
42_seed_expansion.md R75). The steps are the model's, idle and waiting ones included (log entries 4 and 5); the free
values of a RESET (log entry 2) come with B_SEEDED = 0. -/
def Obligations.EveryStepKeepsGeneratorBNonZero : Prop :=
  ∀ s t : State, NonZeroB s → step s = .next t → NonZeroB t

/-- In every reachable state with B_SEEDED = 1, B_S is not the all-zero vector (R22). Runs are over the host's script,
the model's form of the ports (log entry 3). -/
def Obligations.NoReachableAllZeroGeneratorB : Prop :=
  ∀ s : State, Reachable s → NonZeroB s

/-- Cores that differ only in unseeded registers and E_STATE stay alike under every step (10_state.md R36, 10_state.md
R23). The steps are the model's, idle and waiting ones included (log entries 4 and 5); nothing rests on the free
values (log entry 2) or on E_STATE (log entry 11). -/
def Obligations.UnseededContentsStayHidden : Prop :=
  ∀ s t : State, ObsEq s t → ∃ s' t', step s = .next s' ∧ step t = .next t' ∧ ObsEq s' t'

/-- No run shows what A_STATE, B_S and E_STATE held after reset (10_state.md R36, 10_state.md R35). The reset values are
the model's choice (log entry 1, DESIGN CHOICE), and the statement holds for any; the steps are the model's (log
entries 4 and 5). -/
def Obligations.ResetContentsAreNeverObserved : Prop :=
  ∀ (inputs : List HostInput) (n : Nat) (a : Word) (b : BState) (e : Word) (d : Nat), ∃ s t,
    Host.Core.run core n { State.reset with host := inputs } = .next s ∧
    Host.Core.run core n { State.reset with host := inputs, aState := a, bS := b, eState := e, draws := d } =
      .next t ∧
    s.rsp = t.rsp ∧ s.taken = t.taken ∧ s.status = t.status

/-- B.SEED ignores generator A and leaves its sequence as it was (R72). -/
def Obligations.BSeedAndGeneratorAAreIndependent : Prop :=
  ∀ (seed : Word) (s s' : State), ∃ t t' u v,
    exec (.bSeed seed) s = .next t ∧ exec (.bSeed seed) s' = .next t' ∧ t.bS = t'.bS ∧
    t.aState = s.aState ∧ t.aSeeded = s.aSeeded ∧
    exec .aNext s = .next u ∧ exec .aNext t = .next v ∧ u.rsp = v.rsp ∧ u.aState = v.aState

/-- A command of one generator reads and writes only that generator, the flags, and E_STATE for B.SEED (R37). -/
def Obligations.GeneratorsShareNoState : Prop :=
  (∀ (i : Instr) (s t : State), ((∃ x, i = .aSeed x) ∨ i = .aNext ∨ i = .aPeek) →
    s.aState = t.aState → s.aSeeded = t.aSeeded →
    ∃ s' t', exec i s = .next s' ∧ exec i t = .next t' ∧ s'.rsp = t'.rsp ∧ s'.aState = t'.aState ∧
      s'.aSeeded = t'.aSeeded ∧ s'.bS = s.bS ∧ s'.bSeeded = s.bSeeded ∧ s'.eState = s.eState) ∧
  (∀ (i : Instr) (s t : State), ((∃ x, i = .bSeed x) ∨ i = .bNext ∨ ∃ idx, i = .bPeek idx) →
    s.bS = t.bS → s.bSeeded = t.bSeeded →
    ∃ s' t', exec i s = .next s' ∧ exec i t = .next t' ∧ s'.rsp = t'.rsp ∧ s'.bS = t'.bS ∧
      s'.bSeeded = t'.bSeeded ∧ s'.aState = s.aState ∧ s'.aSeeded = s.aSeeded ∧
      ((∀ x, i ≠ .bSeed x) → s'.eState = s.eState))

/-- A step of one core leaves every other alone, and steps of two commute (absent core numbers: log entry 13)
(20_memory.md R47, 60_exceptions.md R91). A core number the system does not have, whose step does nothing, is the
model's (log entry 13, DEDUCED); so is that all cores of a system start with equal unseeded registers (log entries 1
and 17, DESIGN CHOICE). -/
def Obligations.CoresOfASystemAreIndependent : Prop :=
  (∀ (sys : System) (k : Nat) (s : State), sys[k]? = some s → ∃ t sys', step s = .next t ∧
    System.stepCore k sys = .next sys' ∧ sys'[k]? = some t ∧ (∀ j, j ≠ k → sys'[j]? = sys[j]?)) ∧
  (∀ (sys : System) (j k : Nat), j ≠ k → ∃ u v w,
    System.stepCore j sys = .next u ∧ System.stepCore k u = .next w ∧
    System.stepCore k sys = .next v ∧ System.stepCore j v = .next w) ∧
  (∀ p : Config.Params, (System.reset p).length = p.nCores ∧ ∀ s ∈ System.reset p, s = State.reset)

/-- Two cores seeded with one seed give equal sequences, whatever they held before (60_exceptions.md R91,
95_test_vectors.md S1). -/
def Obligations.OneSeedOneSequence : Prop :=
  ∀ (seed : Word) (s t : State) (n : Nat),
    (∃ s1 t1 u v, exec (.aSeed seed) s = .next s1 ∧ exec (.aSeed seed) t = .next t1 ∧
      repeatExec .aNext n s1 = .next u ∧ repeatExec .aNext n t1 = .next v ∧
      u.rsp = v.rsp ∧ u.aState = v.aState) ∧
    (∃ s1 t1 u v, exec (.bSeed seed) s = .next s1 ∧ exec (.bSeed seed) t = .next t1 ∧
      repeatExec .bNext n s1 = .next u ∧ repeatExec .bNext n t1 = .next v ∧
      u.rsp = v.rsp ∧ u.bS = v.bS)
end

