-- ==== Sys2Proof/Laws/State.lean ====
section
/-! SUPPORT. What each update of State does to each field: one lemma per field per update. -/

namespace Sys2Proof.Machine

@[simp] theorem setWord_zero (b : BState) (v : Word) : b.setWord 0#2 v = { b with s0 := v } := rfl
@[simp] theorem setWord_one (b : BState) (v : Word) : b.setWord 1#2 v = { b with s1 := v } := rfl
@[simp] theorem setWord_two (b : BState) (v : Word) : b.setWord 2#2 v = { b with s2 := v } := rfl
@[simp] theorem setWord_three (b : BState) (v : Word) : b.setWord 3#2 v = { b with s3 := v } := rfl
@[simp] theorem word_zero (b : BState) : b.word 0#2 = b.s0 := rfl
@[simp] theorem word_one (b : BState) : b.word 1#2 = b.s1 := rfl
@[simp] theorem word_two (b : BState) : b.word 2#2 = b.s2 := rfl
@[simp] theorem word_three (b : BState) : b.word 3#2 = b.s3 := rfl

@[simp] theorem respond_rsp (code : RspCode) (data : Word) (s : State) : (respond code data s).rsp = some ⟨code, data⟩ := rfl
@[simp] theorem respond_aSeeded (code : RspCode) (data : Word) (s : State) : (respond code data s).aSeeded = s.aSeeded := rfl
@[simp] theorem respond_bSeeded (code : RspCode) (data : Word) (s : State) : (respond code data s).bSeeded = s.bSeeded := rfl
@[simp] theorem respond_errIll (code : RspCode) (data : Word) (s : State) : (respond code data s).errIll = s.errIll := rfl
@[simp] theorem respond_errUns (code : RspCode) (data : Word) (s : State) : (respond code data s).errUns = s.errUns := rfl
@[simp] theorem respond_host (code : RspCode) (data : Word) (s : State) : (respond code data s).host = s.host := rfl
@[simp] theorem respond_taken (code : RspCode) (data : Word) (s : State) : (respond code data s).taken = s.taken := rfl
@[simp] theorem respond_draws (code : RspCode) (data : Word) (s : State) : (respond code data s).draws = s.draws := rfl
@[simp] theorem respond_aState (code : RspCode) (data : Word) (s : State) : (respond code data s).aState = s.aState := rfl
@[simp] theorem respond_bS (code : RspCode) (data : Word) (s : State) : (respond code data s).bS = s.bS := rfl
@[simp] theorem respond_eState (code : RspCode) (data : Word) (s : State) : (respond code data s).eState = s.eState := rfl

@[simp] theorem raise_illegal_rsp (s : State) : (raise .illegal s).rsp = some ⟨.illegal, 0⟩ := rfl
@[simp] theorem raise_illegal_aSeeded (s : State) : (raise .illegal s).aSeeded = s.aSeeded := rfl
@[simp] theorem raise_illegal_bSeeded (s : State) : (raise .illegal s).bSeeded = s.bSeeded := rfl
@[simp] theorem raise_illegal_errIll (s : State) : (raise .illegal s).errIll = true := rfl
@[simp] theorem raise_illegal_errUns (s : State) : (raise .illegal s).errUns = s.errUns := rfl
@[simp] theorem raise_illegal_host (s : State) : (raise .illegal s).host = s.host := rfl
@[simp] theorem raise_illegal_taken (s : State) : (raise .illegal s).taken = s.taken := rfl
@[simp] theorem raise_illegal_draws (s : State) : (raise .illegal s).draws = s.draws := rfl
@[simp] theorem raise_illegal_aState (s : State) : (raise .illegal s).aState = s.aState := rfl
@[simp] theorem raise_illegal_bS (s : State) : (raise .illegal s).bS = s.bS := rfl
@[simp] theorem raise_illegal_eState (s : State) : (raise .illegal s).eState = s.eState := rfl

@[simp] theorem raise_unseeded_rsp (s : State) : (raise .unseeded s).rsp = some ⟨.unseeded, 0⟩ := rfl
@[simp] theorem raise_unseeded_aSeeded (s : State) : (raise .unseeded s).aSeeded = s.aSeeded := rfl
@[simp] theorem raise_unseeded_bSeeded (s : State) : (raise .unseeded s).bSeeded = s.bSeeded := rfl
@[simp] theorem raise_unseeded_errIll (s : State) : (raise .unseeded s).errIll = s.errIll := rfl
@[simp] theorem raise_unseeded_errUns (s : State) : (raise .unseeded s).errUns = true := rfl
@[simp] theorem raise_unseeded_host (s : State) : (raise .unseeded s).host = s.host := rfl
@[simp] theorem raise_unseeded_taken (s : State) : (raise .unseeded s).taken = s.taken := rfl
@[simp] theorem raise_unseeded_draws (s : State) : (raise .unseeded s).draws = s.draws := rfl
@[simp] theorem raise_unseeded_aState (s : State) : (raise .unseeded s).aState = s.aState := rfl
@[simp] theorem raise_unseeded_bS (s : State) : (raise .unseeded s).bS = s.bS := rfl
@[simp] theorem raise_unseeded_eState (s : State) : (raise .unseeded s).eState = s.eState := rfl

@[simp] theorem clearSticky_rsp (s : State) : (clearSticky s).rsp = s.rsp := rfl
@[simp] theorem clearSticky_aSeeded (s : State) : (clearSticky s).aSeeded = s.aSeeded := rfl
@[simp] theorem clearSticky_bSeeded (s : State) : (clearSticky s).bSeeded = s.bSeeded := rfl
@[simp] theorem clearSticky_errIll (s : State) : (clearSticky s).errIll = false := rfl
@[simp] theorem clearSticky_errUns (s : State) : (clearSticky s).errUns = false := rfl
@[simp] theorem clearSticky_host (s : State) : (clearSticky s).host = s.host := rfl
@[simp] theorem clearSticky_taken (s : State) : (clearSticky s).taken = s.taken := rfl
@[simp] theorem clearSticky_draws (s : State) : (clearSticky s).draws = s.draws := rfl
@[simp] theorem clearSticky_aState (s : State) : (clearSticky s).aState = s.aState := rfl
@[simp] theorem clearSticky_bS (s : State) : (clearSticky s).bS = s.bS := rfl
@[simp] theorem clearSticky_eState (s : State) : (clearSticky s).eState = s.eState := rfl

@[simp] theorem applyReset_rsp (s : State) : (applyReset s).rsp = none := rfl
@[simp] theorem applyReset_aSeeded (s : State) : (applyReset s).aSeeded = false := rfl
@[simp] theorem applyReset_bSeeded (s : State) : (applyReset s).bSeeded = false := rfl
@[simp] theorem applyReset_errIll (s : State) : (applyReset s).errIll = false := rfl
@[simp] theorem applyReset_errUns (s : State) : (applyReset s).errUns = false := rfl
@[simp] theorem applyReset_host (s : State) : (applyReset s).host = s.host := rfl
@[simp] theorem applyReset_taken (s : State) : (applyReset s).taken = s.taken := rfl
@[simp] theorem applyReset_draws (s : State) : (applyReset s).draws = s.draws + 6 := rfl
@[simp] theorem applyReset_aState (s : State) : (applyReset s).aState = Config.noValue s.draws := rfl
@[simp] theorem applyReset_bS (s : State) : (applyReset s).bS = ⟨Config.noValue (s.draws + 1), Config.noValue (s.draws + 2),
    Config.noValue (s.draws + 3), Config.noValue (s.draws + 4)⟩ := rfl
@[simp] theorem applyReset_eState (s : State) : (applyReset s).eState = Config.noValue (s.draws + 5) := rfl

@[simp] theorem takeResponse_rsp (s : State) : (takeResponse s).rsp = none := rfl
@[simp] theorem takeResponse_aSeeded (s : State) : (takeResponse s).aSeeded = s.aSeeded := rfl
@[simp] theorem takeResponse_bSeeded (s : State) : (takeResponse s).bSeeded = s.bSeeded := rfl
@[simp] theorem takeResponse_errIll (s : State) : (takeResponse s).errIll = s.errIll := rfl
@[simp] theorem takeResponse_errUns (s : State) : (takeResponse s).errUns = s.errUns := rfl
@[simp] theorem takeResponse_host (s : State) : (takeResponse s).host = s.host := rfl
@[simp] theorem takeResponse_taken (s : State) : (takeResponse s).taken = s.taken ++ s.rsp.toList := rfl
@[simp] theorem takeResponse_draws (s : State) : (takeResponse s).draws = s.draws := rfl
@[simp] theorem takeResponse_aState (s : State) : (takeResponse s).aState = s.aState := rfl
@[simp] theorem takeResponse_bS (s : State) : (takeResponse s).bS = s.bS := rfl
@[simp] theorem takeResponse_eState (s : State) : (takeResponse s).eState = s.eState := rfl

@[simp] theorem placeRequest_rsp (r : Request) (s : State) : (placeRequest r s).rsp = none := rfl
@[simp] theorem placeRequest_aSeeded (r : Request) (s : State) : (placeRequest r s).aSeeded = s.aSeeded := rfl
@[simp] theorem placeRequest_bSeeded (r : Request) (s : State) : (placeRequest r s).bSeeded = s.bSeeded := rfl
@[simp] theorem placeRequest_errIll (r : Request) (s : State) : (placeRequest r s).errIll = s.errIll := rfl
@[simp] theorem placeRequest_errUns (r : Request) (s : State) : (placeRequest r s).errUns = s.errUns := rfl
@[simp] theorem placeRequest_host (r : Request) (s : State) : (placeRequest r s).host = .command r :: s.host := rfl
@[simp] theorem placeRequest_taken (r : Request) (s : State) : (placeRequest r s).taken = s.taken ++ s.rsp.toList := rfl
@[simp] theorem placeRequest_draws (r : Request) (s : State) : (placeRequest r s).draws = s.draws := rfl
@[simp] theorem placeRequest_aState (r : Request) (s : State) : (placeRequest r s).aState = s.aState := rfl
@[simp] theorem placeRequest_bS (r : Request) (s : State) : (placeRequest r s).bS = s.bS := rfl
@[simp] theorem placeRequest_eState (r : Request) (s : State) : (placeRequest r s).eState = s.eState := rfl

theorem expandPass_zero (e : Engine) : expandPass 0#2 e =
    ⟨e.eState + gamma, { e.bS with s0 := mix64 (e.eState + gamma) }⟩ := rfl

theorem expandPass_one (e : Engine) : expandPass 1#2 e =
    ⟨e.eState + gamma, { e.bS with s1 := mix64 (e.eState + gamma) }⟩ := rfl

theorem expandPass_two (e : Engine) : expandPass 2#2 e =
    ⟨e.eState + gamma, { e.bS with s2 := mix64 (e.eState + gamma) }⟩ := rfl

theorem expandPass_three (e : Engine) : expandPass 3#2 e =
    ⟨e.eState + gamma, { e.bS with s3 := mix64 (e.eState + gamma) }⟩ := rfl

/-- The expansion in terms of the seed alone: what B_S held before does not matter. -/
theorem expand_eq (seed : Word) (b : BState) : expand seed b =
    ⟨seed + gamma + gamma + gamma + gamma,
     ⟨mix64 (seed + gamma), mix64 (seed + gamma + gamma), mix64 (seed + gamma + gamma + gamma),
      mix64 (seed + gamma + gamma + gamma + gamma)⟩⟩ := by
  rw [expand, expandPass_zero, expandPass_one, expandPass_two, expandPass_three]

@[simp] theorem expand_eState (seed : Word) (b : BState) :
    (expand seed b).eState = seed + gamma + gamma + gamma + gamma := by
  rw [expand_eq]

@[simp] theorem expand_bS (seed : Word) (b : BState) : (expand seed b).bS =
    ⟨mix64 (seed + gamma), mix64 (seed + gamma + gamma), mix64 (seed + gamma + gamma + gamma),
     mix64 (seed + gamma + gamma + gamma + gamma)⟩ := by
  rw [expand_eq]

@[simp] theorem code_illegal : ErrorCause.illegal.code = RspCode.illegal := rfl
@[simp] theorem code_unseeded : ErrorCause.unseeded.code = RspCode.unseeded := rfl

/-- STATUS reads the four flags and nothing else. -/
theorem status_congr {s t : State} (hA : s.aSeeded = t.aSeeded) (hB : s.bSeeded = t.bSeeded)
    (hI : s.errIll = t.errIll) (hU : s.errUns = t.errUns) : s.status = t.status := by
  simp only [State.status, hA, hB, hI, hU]

end Sys2Proof.Machine
end

