-- ==== Sys2Proof/Laws/Ops.lean ====
section
/-! SUPPORT. What each shared operation can do, said once. -/

namespace Sys2Proof.Machine

/-- The guard runs the effect, or raises UNSEEDED; it never stops. -/
theorem whenSeeded_next {seeded : Bool} {effect s t : State} (h : whenSeeded seeded effect s = .next t) :
    (seeded = true ∧ t = effect) ∨ (seeded = false ∧ t = raise .unseeded s) := by
  cases seeded <;> simp [whenSeeded] at h <;> simp [h]

@[simp] theorem whenSeeded_true (effect s : State) : whenSeeded true effect s = .next effect := rfl
@[simp] theorem whenSeeded_false (effect s : State) : whenSeeded false effect s = .next (raise .unseeded s) := rfl

theorem whenSeeded_of_true {seeded : Bool} (h : seeded = true) (effect s : State) :
    whenSeeded seeded effect s = .next effect := by
  rw [h, whenSeeded_true]

theorem whenSeeded_of_false {seeded : Bool} (h : seeded = false) (effect s : State) :
    whenSeeded seeded effect s = .next (raise .unseeded s) := by
  rw [h, whenSeeded_false]

/-- The word read at an index just written is the word written; the others are as before. -/
theorem word_setWord (b : BState) (i j : BitVec 2) (v : Word) :
    (b.setWord i v).word j = if j = i then v else b.word j := by
  rcases (by decide : ∀ i : BitVec 2, i = 0#2 ∨ i = 1#2 ∨ i = 2#2 ∨ i = 3#2) i with rfl | rfl | rfl | rfl <;>
  rcases (by decide : ∀ i : BitVec 2, i = 0#2 ∨ i = 1#2 ∨ i = 2#2 ∨ i = 3#2) j with rfl | rfl | rfl | rfl <;> rfl

/-! The meaning of each instruction over the shared operations. Cite these by `rw`: a proof by `rfl` or `simp` that unfolds
`exec` down to word arithmetic makes the kernel compare 64-bit sums literally, which it cannot finish. -/

theorem exec_aSeed (seed : Word) (s : State) :
    exec (.aSeed seed) s = .next (respond .ok 0 { s with aState := seed, aSeeded := true }) := rfl
theorem exec_aNext (s : State) : exec .aNext s = whenSeeded s.aSeeded
    (respond .ok (mix64 (s.aState + gamma)) { s with aState := s.aState + gamma }) s := rfl
theorem exec_aPeek (s : State) : exec .aPeek s = whenSeeded s.aSeeded (respond .ok s.aState s) s := rfl
theorem exec_bSeed (seed : Word) (s : State) :
    exec (.bSeed seed) s = .next (respond .ok 0
      { s with eState := (expand seed s.bS).eState, bS := (expand seed s.bS).bS, bSeeded := true }) := rfl
theorem exec_bNext (s : State) : exec .bNext s = whenSeeded s.bSeeded
    (respond .ok (scr s.bS.s1) { s with bS := adv s.bS }) s := rfl
theorem exec_bPeek (idx : BitVec 2) (s : State) :
    exec (.bPeek idx) s = whenSeeded s.bSeeded (respond .ok (s.bS.word idx) s) s := rfl
theorem exec_rdMin (s : State) : exec .rdMin s = .next (respond .ok minValue s) := rfl
theorem exec_rdMax (s : State) : exec .rdMax s = .next (respond .ok maxValue s) := rfl
theorem exec_rdStatus (s : State) : exec .rdStatus s = .next (respond .ok s.status s) := rfl
theorem exec_clrStatus (s : State) : exec .clrStatus s = .next (respond .ok 0 (clearSticky s)) := rfl

/-- Everything an instruction can do: one case per constructor, two where the instruction has the seeded guard. -/
inductive ExecCase (s : State) : Instr → State → Prop where
  | aSeed (seed : Word) : ExecCase s (.aSeed seed) (respond .ok 0 { s with aState := seed, aSeeded := true })
  | aNext (h : s.aSeeded = true) :
      ExecCase s .aNext (respond .ok (mix64 (s.aState + gamma)) { s with aState := s.aState + gamma })
  | aNextUnseeded (h : s.aSeeded = false) : ExecCase s .aNext (raise .unseeded s)
  | aPeek (h : s.aSeeded = true) : ExecCase s .aPeek (respond .ok s.aState s)
  | aPeekUnseeded (h : s.aSeeded = false) : ExecCase s .aPeek (raise .unseeded s)
  | bSeed (seed : Word) : ExecCase s (.bSeed seed) (respond .ok 0
      { s with eState := (expand seed s.bS).eState, bS := (expand seed s.bS).bS, bSeeded := true })
  | bNext (h : s.bSeeded = true) : ExecCase s .bNext (respond .ok (scr s.bS.s1) { s with bS := adv s.bS })
  | bNextUnseeded (h : s.bSeeded = false) : ExecCase s .bNext (raise .unseeded s)
  | bPeek (idx : BitVec 2) (h : s.bSeeded = true) : ExecCase s (.bPeek idx) (respond .ok (s.bS.word idx) s)
  | bPeekUnseeded (idx : BitVec 2) (h : s.bSeeded = false) : ExecCase s (.bPeek idx) (raise .unseeded s)
  | rdMin : ExecCase s .rdMin (respond .ok minValue s)
  | rdMax : ExecCase s .rdMax (respond .ok maxValue s)
  | rdStatus : ExecCase s .rdStatus (respond .ok s.status s)
  | clrStatus : ExecCase s .clrStatus (respond .ok 0 (clearSticky s))

/-- Two next states are equal when the outcomes are. -/
theorem next_inj {s t : State} (h : (Host.Outcome.next s : Result) = .next t) : s = t := by injection h

theorem exec_cases {i : Instr} {s t : State} (h : exec i s = .next t) : ExecCase s i t := by
  cases i with
  | aSeed seed => exact next_inj h ▸ .aSeed seed
  | aNext =>
    obtain ⟨hs, rfl⟩ | ⟨hs, rfl⟩ := whenSeeded_next h
    · exact .aNext hs
    · exact .aNextUnseeded hs
  | aPeek =>
    obtain ⟨hs, rfl⟩ | ⟨hs, rfl⟩ := whenSeeded_next h
    · exact .aPeek hs
    · exact .aPeekUnseeded hs
  | bSeed seed => exact next_inj h ▸ .bSeed seed
  | bNext =>
    obtain ⟨hs, rfl⟩ | ⟨hs, rfl⟩ := whenSeeded_next h
    · exact .bNext hs
    · exact .bNextUnseeded hs
  | bPeek idx =>
    obtain ⟨hs, rfl⟩ | ⟨hs, rfl⟩ := whenSeeded_next h
    · exact .bPeek idx hs
    · exact .bPeekUnseeded idx hs
  | rdMin => exact next_inj h ▸ .rdMin
  | rdMax => exact next_inj h ▸ .rdMax
  | rdStatus => exact next_inj h ▸ .rdStatus
  | clrStatus => exact next_inj h ▸ .clrStatus

theorem whenSeeded_answers (seeded : Bool) (effect s : State) : ∃ t, whenSeeded seeded effect s = .next t := by
  cases seeded
  · exact ⟨_, whenSeeded_false effect s⟩
  · exact ⟨_, whenSeeded_true effect s⟩

/-- No instruction stops. -/
theorem exec_answers (i : Instr) (s : State) : ∃ t, exec i s = .next t := by
  cases i with
  | aSeed seed => exact ⟨_, exec_aSeed seed s⟩
  | aNext => rw [exec_aNext]; exact whenSeeded_answers _ _ _
  | aPeek => rw [exec_aPeek]; exact whenSeeded_answers _ _ _
  | bSeed seed => exact ⟨_, exec_bSeed seed s⟩
  | bNext => rw [exec_bNext]; exact whenSeeded_answers _ _ _
  | bPeek idx => rw [exec_bPeek]; exact whenSeeded_answers _ _ _
  | rdMin => exact ⟨_, exec_rdMin s⟩
  | rdMax => exact ⟨_, exec_rdMax s⟩
  | rdStatus => exact ⟨_, exec_rdStatus s⟩
  | clrStatus => exact ⟨_, exec_clrStatus s⟩

/-- Every instruction responds, and leaves the host's script, its record and the model's counter alone. -/
theorem exec_channels {i : Instr} {s t : State} (h : exec i s = .next t) :
    (∃ p, t.rsp = some p) ∧ t.host = s.host ∧ t.taken = s.taken ∧ t.draws = s.draws := by
  cases exec_cases h <;> simp

/-- A command is carried out as its instruction, or gets the ILLEGAL response. -/
theorem carryOut_cases {r : Request} {s t : State} (h : carryOut r s = .next t) :
    (∃ i, r.decode = some i ∧ exec i s = .next t) ∨ (r.decode = none ∧ t = raise .illegal s) := by
  unfold carryOut at h
  split at h
  · exact .inl ⟨_, ‹_›, h⟩
  · cases h; exact .inr ⟨‹_›, rfl⟩

theorem carryOut_of_decode {r : Request} {i : Instr} (h : r.decode = some i) (s : State) :
    carryOut r s = exec i s := by
  rw [carryOut, h]

theorem carryOut_of_illegal {r : Request} (h : r.decode = none) (s : State) :
    carryOut r s = .next (raise .illegal s) := by
  rw [carryOut, h]

theorem carryOut_answers (r : Request) (s : State) : ∃ t, carryOut r s = .next t := by
  cases h : r.decode with
  | none => exact ⟨_, carryOut_of_illegal h s⟩
  | some i => rw [carryOut_of_decode h]; exact exec_answers i s

/-- Every command responds, and leaves the host's script, its record and the model's counter alone. -/
theorem carryOut_channels {r : Request} {s t : State} (h : carryOut r s = .next t) :
    (∃ p, t.rsp = some p) ∧ t.host = s.host ∧ t.taken = s.taken ∧ t.draws = s.draws := by
  obtain ⟨i, _, h⟩ | ⟨_, rfl⟩ := carryOut_cases h
  · exact exec_channels h
  · simp

end Sys2Proof.Machine
end

