-- ==== Sys2Proof/Laws/PerInstr.lean ====
section
/-! SUPPORT. Statements made of every instruction as syntax, one lemma per constructor. -/

namespace Sys2Proof.Laws.TableRow

/-- The instruction's own word fits its row of spec/opcode_table.json (30_encoding.md R53) and is legal (R55). -/
def Statement (i : Instr) : Prop :=
  (encode i).cmd &&& i.maskBits = i.matchBits ∧ legalCmd (encode i).cmd = true

theorem aSeed (seed : Word) : Statement (.aSeed seed) := by
  simp only [Statement, encode, Instr.maskBits, Instr.matchBits]
  decide
theorem aNext : Statement .aNext := by unfold Statement; decide
theorem aPeek : Statement .aPeek := by unfold Statement; decide
theorem bSeed (seed : Word) : Statement (.bSeed seed) := by
  simp only [Statement, encode, Instr.maskBits, Instr.matchBits]
  decide
theorem bNext : Statement .bNext := by unfold Statement; decide
theorem bPeek (idx : BitVec 2) : Statement (.bPeek idx) := by
  unfold Statement
  revert idx
  decide
theorem rdMin : Statement .rdMin := by unfold Statement; decide
theorem rdMax : Statement .rdMax := by unfold Statement; decide
theorem rdStatus : Statement .rdStatus := by unfold Statement; decide
theorem clrStatus : Statement .clrStatus := by unfold Statement; decide

end Sys2Proof.Laws.TableRow
end

