-- ==== Sys2Proof/Laws/Step.lean ====
section
/-! SUPPORT. What a step can do, said once, and the shape of a run. -/

namespace Sys2Proof.Machine

/-- Everything a step can do: nothing; the host takes the response that keeps a command waiting; or one host action. -/
theorem step_cases {s t : State} (h : step s = .next t) :
    (s.host = [] ∧ t = s) ∨
    (∃ inp rest, s.host = inp :: rest ∧ inp.needsReady = true ∧ s.rsp ≠ none ∧ t = takeResponse s) ∨
    (∃ r rest, s.host = .command r :: rest ∧ s.rsp = none ∧ carryOut r { s with host := rest } = .next t) ∨
    (∃ rest, s.host = .take :: rest ∧ t = takeResponse { s with host := rest }) ∨
    (∃ rest, s.host = .reset :: rest ∧ t = applyReset { s with host := rest }) ∨
    (∃ r rest, s.host = .cutCommand r :: rest ∧ s.rsp = none ∧ t = applyReset { s with host := rest }) := by
  unfold step serveHost at h
  split at h
  next hh => cases h; exact .inl ⟨hh, rfl⟩
  next inp rest hh =>
    split at h
    next hw =>
      simp only [Bool.and_eq_true, Bool.not_eq_true', State.reqReady, Option.isNone_eq_false_iff,
        Option.isSome_iff_ne_none] at hw
      cases h
      exact .inr (.inl ⟨inp, rest, hh, hw.1, hw.2, rfl⟩)
    next hw =>
      have ready : inp.needsReady = true → s.rsp = none := by
        intro hn
        simpa [hn, State.reqReady] using hw
      cases inp with
      | command r => exact .inr (.inr (.inl ⟨r, rest, hh, ready rfl, h⟩))
      | take => exact .inr (.inr (.inr (.inl ⟨rest, hh, (next_inj h).symm⟩)))
      | reset => exact .inr (.inr (.inr (.inr (.inl ⟨rest, hh, (next_inj h).symm⟩))))
      | cutCommand r =>
        exact .inr (.inr (.inr (.inr (.inr ⟨r, rest, hh, ready rfl, (next_inj h).symm⟩))))

/-- A run of `m + n` steps is a run of `m` and then a run of `n`. -/
theorem run_add {m n : Nat} {s t : State} (h : Host.Core.run core m s = .next t) :
    Host.Core.run core (m + n) s = Host.Core.run core n t := by
  induction m generalizing s with
  | zero => cases h; simp
  | succ m ih =>
    rw [Nat.succ_add]
    simp only [Host.Core.run] at h ⊢
    split at h
    · exact ih h
    · cases h
    · cases h

/-- What holds at the start and is kept by every step holds after every run. -/
theorem run_induction {P : State → Prop} (keep : ∀ s t, P s → step s = .next t → P t) {n : Nat} {s t : State}
    (hs : P s) (h : Host.Core.run core n s = .next t) : P t := by
  induction n generalizing s with
  | zero => cases h; exact hs
  | succ n ih =>
    simp only [Host.Core.run] at h
    split at h
    next u hu => exact ih (keep s u hs hu) h
    · cases h
    · cases h

end Sys2Proof.Machine
end

