-- ==== Sys2Proof/Laws/Runs.lean ====
section
/-! SUPPORT. One step of the repeated and sequential runs the claims speak of. -/

namespace Sys2Proof.Machine

theorem repeatExec_succ {i : Instr} {s t : State} (n : Nat) (h : exec i s = .next t) :
    repeatExec i (n + 1) s = repeatExec i n t := by
  rw [repeatExec, h]

theorem serveAll_cons {r : Request} {s t : State} (rs : List Request) (h : carryOut r s = .next t) :
    serveAll (r :: rs) s = serveAll rs (takeResponse t) := by
  rw [serveAll, h]

theorem scriptOf_cons (r : Request) (rs : List Request) :
    scriptOf (r :: rs) = .command r :: .take :: scriptOf rs := rfl

/-- A run of one more step begins with that step. -/
theorem run_succ {s t : State} (n : Nat) (h : step s = .next t) :
    Host.Core.run core (n + 1) s = Host.Core.run core n t := by
  have hc : core.step s = .next t := h
  simp only [Host.Core.run, hc]

end Sys2Proof.Machine
end

