-- ==== Sys2Proof/Tests/Slice0.lean ====
section
/-! SUPPORT. The model's own tests. Expected values are the spec's: the test vectors of 95_test_vectors.md, the examples of
the command rules, or words written out from 30_encoding.md R51 and R53. -/

namespace Sys2Proof.Tests
open Sys2Proof.Machine

/-- Both generators seeded, with the contents 95_test_vectors.md gives for seed 123. -/
def seeded : State :=
  { State.reset with
    aState := 0x7b#64, aSeeded := true, bSeeded := true
    bS := ⟨0xb4dc9bd462de412b#64, 0xfa023ce9f06fb77c#64, 0xdc12d311d371cbe8#64, 0xafd2040c909881ff#64⟩ }

/-- `s` with one command on offer. -/
def offering (c : CmdWord) (o : Word) (s : State) : State := { s with host := [.command ⟨c, o⟩] }

/-- What a host sees after one step: the response and STATUS (R101). -/
def seen : Result → Option (Option Response × Word)
  | .next t => some (t.rsp, t.status)
  | .fault _ => none
  | .refused _ => none

/-- The generator words after one step: A_STATE and B_S. -/
def words : Result → Option (Word × BState)
  | .next t => some (t.aState, t.bS)
  | .fault _ => none
  | .refused _ => none

/-! ## Well-formedness: one ill-formed term for each check -/

theorem test_wf_aSeed_literal_too_big : (AsmLine.aSeed (2 ^ 64)).wellFormed = false := by decide
theorem test_wf_bSeed_literal_too_big : (AsmLine.bSeed (2 ^ 64)).wellFormed = false := by decide
theorem test_wf_bPeek_index_too_big : (AsmLine.bPeek 4).wellFormed = false := by decide
theorem test_wf_largest_literal : (AsmLine.aSeed (2 ^ 64 - 1)).wellFormed = true := by decide
theorem test_wf_instr : (Instr.bPeek 3#2).wellFormed = true := by decide
theorem test_legal_rsv : legalCmd 0x00000413#32 = false := by decide
theorem test_legal_op : legalCmd 0x000000ff#32 = false := by decide
theorem test_legal_idx : legalCmd 0x00000112#32 = false := by decide

/-! ## Decoding: words written out field by field, RSV (22 bits), IDX (2 bits), OP (8 bits), from R51 and R53 -/

theorem test_decode_aSeed : decode 0b0000000000000000000000_00_00000001#32 9#64 = some (.aSeed 9#64) := by decide
theorem test_decode_aNext : decode 0b0000000000000000000000_00_00000010#32 9#64 = some .aNext := by decide
theorem test_decode_aPeek : decode 0b0000000000000000000000_00_00000011#32 9#64 = some .aPeek := by decide
theorem test_decode_bSeed : decode 0b0000000000000000000000_00_00010001#32 9#64 = some (.bSeed 9#64) := by decide
theorem test_decode_bNext : decode 0b0000000000000000000000_00_00010010#32 9#64 = some .bNext := by decide
theorem test_decode_bPeek2 : decode 0b0000000000000000000000_10_00010011#32 9#64 = some (.bPeek 2#2) := by decide
theorem test_decode_bPeek1 : decode 0b0000000000000000000000_01_00010011#32 9#64 = some (.bPeek 1#2) := by decide
theorem test_decode_rdMin : decode 0b0000000000000000000000_00_00100001#32 9#64 = some .rdMin := by decide
theorem test_decode_rdMax : decode 0b0000000000000000000000_00_00100010#32 9#64 = some .rdMax := by decide
theorem test_decode_rdStatus : decode 0b0000000000000000000000_00_00110001#32 9#64 = some .rdStatus := by decide
theorem test_decode_clrStatus : decode 0b0000000000000000000000_00_00110010#32 9#64 = some .clrStatus := by decide
theorem test_decode_zero_word : decode 0x00000000#32 0#64 = none := by decide
theorem test_decode_undefined_op : decode 0x00000014#32 0#64 = none := by decide
theorem test_decode_rsv_bit31 : decode 0x80000001#32 0#64 = none := by decide
theorem test_decodeTableWord : decodeTableWord 32 0x313 = some (.bPeek 3#2) := by decide

/-! ## Functions: rows of the tables of 95_test_vectors.md -/

theorem test_mix64_gamma : mix64 0x9e3779b97f4a7c15#64 = 0xe220a8397b1dcdaf#64 := by decide
theorem test_mix64_ones : mix64 0xffffffffffffffff#64 = 0xb4d055fcf2cbbd7b#64 := by decide
theorem test_rotl64_7 : rotl64 0x0123456789abcdef#64 7 (by decide) = 0x91a2b3c4d5e6f780#64 := by decide
theorem test_rotl64_45 : rotl64 0x8000000000000001#64 45 (by decide) = 0x0000300000000000#64 := by decide
theorem test_scr : scr 0x0123456789abcdef#64 = 0x9999999999998192#64 := by decide
theorem test_adv : adv ⟨1#64, 2#64, 3#64, 4#64⟩ = ⟨7#64, 0#64, 0x40002#64, 0x0000c00000000000#64⟩ := by decide
theorem test_mix64Inv : mix64Inv 0xe220a8397b1dcdaf#64 = 0x9e3779b97f4a7c15#64 := by decide +kernel
theorem test_advInv : advInv ⟨7#64, 0#64, 0x40002#64, 0x0000c00000000000#64⟩ = ⟨1#64, 2#64, 3#64, 4#64⟩ := by decide

/-! ## One step of each command -/

/-- Program P1, line 1. -/
theorem test_aSeed : seen (step (offering 0x00000001#32 0x7b#64 State.reset)) = some (some ⟨.ok, 0#64⟩, 1#64) := by
  decide
theorem test_aSeed_words : words (step (offering 0x00000001#32 0x5#64 seeded)) = some (5#64, seeded.bS) := by decide
/-- R62's example. -/
theorem test_aNext : seen (step (offering 0x00000002#32 0#64 seeded)) =
    some (some ⟨.ok, 0xb4dc9bd462de412b#64⟩, 3#64) := by decide
theorem test_aNext_words : words (step (offering 0x00000002#32 0#64 seeded)) =
    some (0x9e3779b97f4a7c90#64, seeded.bS) := by decide
theorem test_aPeek : seen (step (offering 0x00000003#32 0#64 seeded)) = some (some ⟨.ok, 0x7b#64⟩, 3#64) := by decide
theorem test_aPeek_unseeded : seen (step (offering 0x00000003#32 0x1234#64 State.reset)) =
    some (some ⟨.unseeded, 0#64⟩, 8#64) := by decide
/-- The B.SEED table, seed 0x8722191a02d60fac (B_S[3] = 0). -/
theorem test_bSeed_words : words (step (offering 0x00000011#32 0x8722191a02d60fac#64 seeded)) =
    some (0x7b#64, ⟨0x6061eff69a95c91c#64, 0x61bc8ea8124999d4#64, 0x336503c6b835bec0#64, 0#64⟩) := by decide
theorem test_bSeed : seen (step (offering 0x00000011#32 0x7b#64 State.reset)) = some (some ⟨.ok, 0#64⟩, 2#64) := by
  decide
/-- The seed-123 state table, B.NEXT count 1. -/
theorem test_bNext : seen (step (offering 0x00000012#32 0#64 seeded)) =
    some (some ⟨.ok, 0x325a8fa1d1a069f9#64⟩, 3#64) := by decide
theorem test_bNext_words : words (step (offering 0x00000012#32 0#64 seeded)) =
    some (0x7b#64, ⟨0xe10ca331022977a8#64, 0x92cc742c41c03dbf#64, 0x111da81adf578ac3#64, 0xe6d06aba071cac1e#64⟩) := by
  decide
/-- R70's example. -/
theorem test_bPeek : seen (step (offering 0x00000313#32 0#64 seeded)) =
    some (some ⟨.ok, 0xafd2040c909881ff#64⟩, 3#64) := by decide
theorem test_bPeek_unseeded : seen (step (offering 0x00000313#32 0x1234#64 State.reset)) =
    some (some ⟨.unseeded, 0#64⟩, 8#64) := by decide
theorem test_rdMin : seen (step (offering 0x00000021#32 0x1234#64 State.reset)) = some (some ⟨.ok, 0#64⟩, 0#64) := by
  decide
theorem test_rdMax : seen (step (offering 0x00000022#32 0x1234#64 State.reset)) =
    some (some ⟨.ok, 0xffffffffffffffff#64⟩, 0#64) := by decide
/-- R79: after a.seed, b.seed and one illegal command STATUS is 7. -/
theorem test_rdStatus : seen (step (offering 0x00000031#32 0#64 { seeded with errIll := true })) =
    some (some ⟨.ok, 7#64⟩, 7#64) := by decide
/-- R80's example: STATUS 0xf becomes 3. -/
theorem test_clrStatus : seen (step (offering 0x00000032#32 0#64 { seeded with errIll := true, errUns := true })) =
    some (some ⟨.ok, 0#64⟩, 3#64) := by decide
/-- The priority row of the error table: 0x00000112 from reset is ILLEGAL, not UNSEEDED. -/
theorem test_illegal_priority : seen (step (offering 0x00000112#32 0x1234#64 State.reset)) =
    some (some ⟨.illegal, 0#64⟩, 4#64) := by decide
theorem test_withFetchWord : seen (step (State.reset.withFetchWord 32 0x22)) =
    some (some ⟨.ok, 0xffffffffffffffff#64⟩, 0#64) := by decide
/-- RESET clears the flags and drops the response (R95). -/
theorem test_reset : seen (step { seeded with host := [.reset], rsp := some ⟨.ok, 5#64⟩ }) = some (none, 0#64) := by
  rfl

/-! ## The assembler -/

/-- Program P6, line 1, with a comment. -/
theorem test_assemble_hex : assemble ['b', '.', 's', 'e', 'e', 'd', ' ', '0', 'x', 'c', '3', '9', '1', '0', 'c', '8',
    'd', '0', '1', '6', 'b', '0', '7', 'd', '6', ' ', ';', ' ', 'P', '6'] =
    some [⟨0x00000011#32, 0xc3910c8d016b07d6#64⟩] := by decide
/-- R58's sequence starts `b.seed s`, `b.peek 0`. -/
theorem test_assemble_lines : assemble ['b', '.', 's', 'e', 'e', 'd', ' ', '5', '\n', 'b', '.', 'p', 'e', 'e', 'k', ' ',
    '3'] = some [⟨0x00000011#32, 5#64⟩, ⟨0x00000313#32, 0#64⟩] := by decide
/-- R57: an index outside 0..3 is an assembly error. -/
theorem test_assemble_error : assemble ['b', '.', 'p', 'e', 'e', 'k', ' ', '4'] = none := by decide

/-! ## Witnesses: the hypotheses of each statement that has some can be met -/

theorem witness_DecodeOfEncode : (Instr.bPeek 3#2).wellFormed = true := by decide
theorem witness_EncodeOfDecode :
    decode 0x00000011#32 7#64 = some (.bSeed 7#64) ∧ decode 0x00000213#32 7#64 = some (.bPeek 2#2) := by decide
theorem witness_OperandOnlyReachesTheSeedingCommands :
    (0x00000012#32 : CmdWord) ≠ 0x00000001#32 ∧ (0x00000012#32 : CmdWord) ≠ 0x00000011#32 := by decide
theorem witness_AssemblerTable : 2 ^ 64 - 1 < 2 ^ 64 ∧ 2 ^ 64 ≤ 2 ^ 64 ∧ 4 ≤ 4 := by decide
theorem witness_AssembledLineIsTheEncoding :
    (AsmLine.bPeek 3).wellFormed = true ∧ (AsmLine.bPeek 4).wellFormed = false := by decide
theorem witness_DecimalLiteralsAreReadExactly : 2 ^ 64 - 1 < 2 ^ 64 ∧ 2 ^ 64 ≤ 2 ^ 64 := by decide
theorem witness_CommentsMeanNothing : '\n' ∉ ['r', 'd', '.', 'm', 'i', 'n'] ∧ '\n' ∉ [' ', 'x'] := by decide
theorem witness_StepRunsTheDecodedCommand :
    (offering 0x00000313#32 4#64 seeded).host = .command ⟨0x00000313#32, 4#64⟩ :: [] ∧
    (offering 0x00000313#32 4#64 seeded).rsp = none ∧ (Instr.bPeek 3#2).wellFormed = true ∧
    decode 0x00000313#32 4#64 = some (.bPeek 3#2) := by decide
theorem witness_IllegalWordGetsTheIllegalResponse :
    (offering 0x00000113#32 4#64 seeded).rsp = none ∧ rsvField 0x00000401#32 ≠ 0#22 ∧
    opField 0x00000014#32 ∉ [0x01#8, 0x02#8, 0x03#8, 0x11#8, 0x12#8, 0x13#8, 0x21#8, 0x22#8, 0x31#8, 0x32#8] ∧
    (idxField 0x00000312#32 ≠ 0#2 ∧ opField 0x00000312#32 ≠ 0x13#8) := by decide
theorem witness_IllegalBeforeUnseeded : decode 0x000000ff#32 3#64 = none ∧ State.reset.bSeeded = false := by decide
theorem witness_OneResponsePerCommand :
    (offering 0x00000112#32 4#64 seeded).host = .command ⟨0x00000112#32, 4#64⟩ :: [] ∧
    (offering 0x00000112#32 4#64 seeded).rsp = none := by decide
theorem witness_CommandWaitsForTheResponseToBeTaken :
    ({ offering 0x00000002#32 0#64 seeded with rsp := some ⟨.ok, 9#64⟩ } : State).host =
      .command ⟨0x00000002#32, 0#64⟩ :: [] ∧
    (HostInput.command ⟨0x00000002#32, 0#64⟩).needsReady = true ∧
    ({ offering 0x00000002#32 0#64 seeded with rsp := some ⟨.ok, 9#64⟩ } : State).rsp = some ⟨.ok, 9#64⟩ := by decide
theorem witness_IdleCoreHoldsItsState : seeded.host = [] := by decide
theorem witness_SequencesRunInAcceptanceOrder : seeded.rsp = none := by decide
theorem witness_ResetInputClearsTheFlags : ({ seeded with host := [.reset] } : State).host = .reset :: [] := by decide
theorem witness_CommandCutByResetLeavesNothing :
    let r : Request := ⟨0x00000011#32, 5#64⟩
    let s : State := { seeded with host := [.cutCommand r] }
    let u : State := { s with eState := 5#64, bS := ⟨1#64, 0#64, 0#64, 0#64⟩ }
    s.host = .cutCommand r :: [] ∧ s.rsp = none ∧ u.host = s.host ∧ u.rsp = none ∧ u.taken = s.taken ∧
      u.draws = s.draws := by decide
theorem witness_ANextAdvancesAndMixesTheNewState : seeded.aSeeded = true ∧ State.reset.aSeeded = false := by decide
theorem witness_APeekShowsTheStateAndChangesNothing : seeded.aSeeded = true ∧ State.reset.aSeeded = false := by decide
theorem witness_BNextScramblesThenAdvances : seeded.bSeeded = true ∧ State.reset.bSeeded = false := by decide
theorem witness_BPeekShowsOneWordAndChangesNothing : seeded.bSeeded = true ∧ State.reset.bSeeded = false := by decide
theorem witness_StatusBitLayout : 4 ≤ 63 ∧ seeded.status.getLsbD 63 = false := by decide
theorem witness_LegalCommandsOnSeededGeneratorsSucceed :
    ready .aNext seeded ∧ ready (.bPeek 1#2) seeded ∧ ready .rdMin State.reset := by decide
theorem witness_ErrorsArePrecise :
    seen (carryOut ⟨0#32, 0#64⟩ seeded) = some (some ⟨.illegal, 0#64⟩, 7#64) ∧
    seen (carryOut ⟨0x00000012#32, 0#64⟩ State.reset) = some (some ⟨.unseeded, 0#64⟩, 8#64) := by decide
theorem witness_SeededFlagsRecordTheSeedings : State.reset.aSeeded = false ∧ State.reset.bSeeded = false := by decide
theorem witness_WhoWritesWhat :
    (∀ x, Instr.bNext ≠ .aSeed x) ∧ Instr.bNext ≠ .aNext ∧ (∀ x, Instr.aNext ≠ .bSeed x) ∧ Instr.aNext ≠ .bNext ∧
    seeded.aSeeded = true ∧ seeded.bSeeded = true := by
  refine ⟨?_, ?_, ?_, ?_, ?_, ?_⟩ <;> simp [seeded]
theorem witness_RotationMovesEveryBit : (0 < 63 ∧ 63 < 64) ∧ 63 < 64 := by decide
theorem witness_MixIsABijection : 1 ≤ 1 ∧ 1 ≤ 70 := by decide
theorem witness_ScrambleIsABijection : scr 3#64 = scr 3#64 := by decide
theorem witness_AdvanceKeepsNonZero :
    seeded.bSeeded = true ∧ seeded.bS ≠ BState.zero ∧
    ({ seeded with bS := BState.zero } : State).bS = BState.zero := by decide
theorem witness_SeedExpansionNeverGivesZero :
    (0#2 : BitVec 2) ≠ 3#2 ∧
    words (exec (.bSeed 0x61c8864680b583eb#64) State.reset) =
      some (0#64, ⟨0#64, 0xe220a8397b1dcdaf#64, 0x6e789e6aa1b965f4#64, 0x06c45d188009454f#64⟩) := by decide
theorem witness_TwoToTheSixtyFourDistinctOutputs :
    1 ≤ 1 ∧ 1 < 2 ∧ 2 ≤ 2 ^ 64 ∧
    seen (repeatExec .aNext 1 seeded) = some (some ⟨.ok, 0xb4dc9bd462de412b#64⟩, 3#64) ∧
    seen (repeatExec .aNext 2 seeded) = some (some ⟨.ok, 0xfa023ce9f06fb77c#64⟩, 3#64) := by decide
theorem witness_EveryStepKeepsGeneratorBNonZero :
    NonZeroB seeded ∧ seen (step (offering 0x00000012#32 0#64 seeded)) =
      some (some ⟨.ok, 0x325a8fa1d1a069f9#64⟩, 3#64) := by decide
/-- A state with generator B seeded is reachable: `b.seed 5` from reset. -/
theorem witness_NoReachableAllZeroGeneratorB : ∃ s, Reachable s ∧ s.bSeeded = true :=
  ⟨respond .ok 0 { State.reset with
      eState := (expand 5#64 BState.zero).eState, bS := (expand 5#64 BState.zero).bS, bSeeded := true },
    ⟨[.command ⟨0x00000011#32, 5#64⟩], 1, rfl⟩, rfl⟩
/-- Two different states a host cannot tell apart. -/
theorem witness_UnseededContentsStayHidden :
    ObsEq State.reset { State.reset with aState := 1#64, eState := 2#64 } ∧
    State.reset ≠ { State.reset with aState := 1#64, eState := 2#64 } :=
  ⟨⟨rfl, rfl, rfl, rfl, rfl, rfl, rfl, (fun h => nomatch h), fun _ => rfl⟩, by decide⟩
theorem witness_GeneratorsShareNoState :
    let t : State := { seeded with bS := ⟨1#64, 0#64, 0#64, 0#64⟩ }
    let u : State := { seeded with aState := 9#64 }
    seeded ≠ t ∧ seeded.aState = t.aState ∧ seeded.aSeeded = t.aSeeded ∧ seeded ≠ u ∧ seeded.bS = u.bS ∧
      seeded.bSeeded = u.bSeeded := by decide
theorem witness_CoresOfASystemAreIndependent :
    ([State.reset, seeded] : System)[1]? = some seeded ∧ (0 : Nat) ≠ 1 := by decide

end Sys2Proof.Tests
end

