-- ==== Sys2Proof/Proofs/Rotation.lean ====
section
/-!
Rotation on words, bit by bit (00_scope.md R13, R15): the left shift fills the bits from `k` up, the right shift the
bits below `k`.
-/
namespace Sys2Proof.Machine

/-- A bit below the amount comes from the top `k` bits of the word: there the left shift holds 0. -/
theorem getLsbD_rotl64_of_lt (x : Word) {k j : Nat} (h : 0 < k ∧ k < 64) (hj : j < k) :
    (rotl64 x k h).getLsbD j = x.getLsbD (64 - k + j) := by
  simp [rotl64, hj]

/-- A bit from the amount up comes from `k` places below: there the right shift holds 0. -/
theorem getLsbD_rotl64_of_le (x : Word) {k j : Nat} (h : 0 < k ∧ k < 64) (hk : k ≤ j) (hj : j < 64) :
    (rotl64 x k h).getLsbD j = x.getLsbD (j - k) := by
  have above : x.getLsbD (64 - k + j) = false := BitVec.getLsbD_of_ge x _ (by omega)
  have inWord : j - k < 64 := by omega
  simp [rotl64, hj, Nat.not_lt.mpr hk, above, inWord]

/-- Settles O41, by whether bit `i` stays in the word or is shifted out at the top and re-enters at the bottom. -/
theorem rotationMovesEveryBit : Obligations.RotationMovesEveryBit := by
  intro x k i h hi
  obtain hstay | hwrap := Nat.lt_or_ge (i + k) 64
  · rw [Nat.mod_eq_of_lt hstay, getLsbD_rotl64_of_le x h (Nat.le_add_left k i) hstay, Nat.add_sub_cancel]
  · have hmod : (i + k) % 64 = i + k - 64 := by omega
    have hsource : 64 - k + (i + k - 64) = i := by omega
    rw [hmod, getLsbD_rotl64_of_lt x h (by omega), hsource]

end Sys2Proof.Machine
end

