-- ==== Sys2Proof/Proofs/NonZeroB.lean ====
section
/-!
Generator B is never all zero while it is seeded (10_state.md R22). Of the two commands that write B_S, B.NEXT maps only
the all-zero state to itself (41_generator_b.md R68), and B.SEED cannot write two zero words, as mix64 maps only 0 to 0
(42_seed_expansion.md R75).
-/
namespace Sys2Proof.Machine

/-- A rotation only moves bits, so it gives 0 for 0 alone. -/
theorem eq_zero_of_rotl64_eq_zero {x : Word} {k : Nat} {hk : 0 < k ∧ k < 64} (h : rotl64 x k hk = 0) : x = 0 := by
  apply BitVec.eq_of_getLsbD_eq
  intro i hi
  rw [← rotationMovesEveryBit x k i hk hi, h]
  simp

/-- The advance takes no other state to the all-zero one (R68): the four equations give s0 = 0 and s1 = s2 = s1 <<< 17. -/
theorem eq_zero_of_adv_eq_zero {b : BState} (h : adv b = BState.zero) : b = BState.zero := by
  obtain ⟨s0, s1, s2, s3⟩ := b
  simp only [adv, BState.zero, BState.mk.injEq] at h ⊢
  obtain ⟨h0, h1, h2, h3⟩ := h
  replace h3 : s3 ^^^ s1 = 0 := eq_zero_of_rotl64_eq_zero h3
  have hs0 : s0 = 0 := by simpa [h3] using h0
  have hs12 : s1 = s2 := by simpa [hs0, BitVec.xor_eq_zero_iff] using h1
  have hs1 : s1 = 0 := by
    have hshift : s1 = s1 <<< 17 := by simpa [hs0, ← hs12, BitVec.xor_eq_zero_iff] using h2
    bv_omega
  have hs3 : s3 = 0 := by simpa [hs1] using h3
  exact ⟨hs0, hs1, hs12 ▸ hs1, hs3⟩

/-- An xor-shift gives 0 for 0 alone: no other word is its own right shift. -/
theorem eq_zero_of_xorShift_eq_zero {k : Nat} {z : Word} (hk : 0 < k) (h : xorShift k z = 0) : z = 0 := by
  have hshift : z.toNat / 2 ^ k = z.toNat := by
    have := congrArg BitVec.toNat (BitVec.xor_eq_zero_iff.mp h)
    rw [BitVec.toNat_ushiftRight, Nat.shiftRight_eq_div_pow] at this
    exact this.symm
  have : z.toNat = 0 := Nat.eq_zero_of_not_pos fun hpos =>
    Nat.ne_of_lt (Nat.div_lt_self hpos (Nat.one_lt_two_pow (Nat.ne_of_gt hk))) hshift
  exact BitVec.eq_of_toNat_eq this

/-- Multiplication by a constant that has an inverse modulo 2^64 loses nothing. -/
theorem eq_zero_of_mul_eq_zero {c d z : Word} (hcd : c * d = 1#64) (h : z * c = 0#64) : z = 0#64 := by
  calc z = z * (c * d) := by rw [hcd, BitVec.mul_one]
    _ = z * c * d := (BitVec.mul_assoc z c d).symm
    _ = 0#64 := by rw [h, BitVec.zero_mul]

theorem eq_zero_of_mix64_eq_zero {z : Word} (h : mix64 z = 0) : z = 0 := by
  have h2 := eq_zero_of_mul_eq_zero (d := 0x319642b2d24d8ec3#64) (by decide)
    (eq_zero_of_xorShift_eq_zero (by decide) h)
  have h1 := eq_zero_of_mul_eq_zero (d := 0x96de1b173f119089#64) (by decide)
    (eq_zero_of_xorShift_eq_zero (by decide) h2)
  exact eq_zero_of_xorShift_eq_zero (by decide) h1

/-- The engine's first two words are the mix of two different sums, so they are not both 0. -/
theorem expand_bS_ne_zero (seed : Word) (b : BState) : (expand seed b).bS ≠ BState.zero := by
  rw [expand_bS]
  intro h
  simp only [BState.zero, BState.mk.injEq] at h
  obtain ⟨h0, h1, -, -⟩ := h
  have hfirst : seed + gamma = 0 := eq_zero_of_mix64_eq_zero h0
  have hsecond : seed + gamma + gamma = 0 := eq_zero_of_mix64_eq_zero h1
  rw [hfirst] at hsecond
  exact absurd hsecond (by decide)

theorem nonZeroB_of_unseeded {s : State} (h : s.bSeeded = false) : NonZeroB s := by
  simp [NonZeroB, h]

/-- Every instruction but B.SEED and B.NEXT leaves generator B alone. -/
theorem exec_keeps_nonZeroB {i : Instr} {s t : State} (hs : NonZeroB s) (h : exec i s = .next t) : NonZeroB t := by
  cases exec_cases h with
  | bSeed seed => exact fun _ => expand_bS_ne_zero seed s.bS
  | bNext hB => exact fun _ hzero => hs hB (eq_zero_of_adv_eq_zero hzero)
  | _ => exact hs

theorem carryOut_keeps_nonZeroB {r : Request} {s t : State} (hs : NonZeroB s) (h : carryOut r s = .next t) :
    NonZeroB t := by
  obtain ⟨i, -, h⟩ | ⟨-, rfl⟩ := carryOut_cases h
  · exact exec_keeps_nonZeroB hs h
  · exact hs

/-- Settles O52, over everything a step can do: a command keeps the invariant, a reset unseeds generator B, and every
other step leaves it alone. -/
theorem everyStepKeepsGeneratorBNonZero : Obligations.EveryStepKeepsGeneratorBNonZero := by
  intro s t hs h
  obtain ⟨-, rfl⟩ | ⟨_, _, -, -, -, rfl⟩ | ⟨r, rest, -, -, h⟩ | ⟨_, -, rfl⟩ | ⟨_, -, rfl⟩ | ⟨_, _, -, -, rfl⟩ :=
    step_cases h
  · exact hs
  · exact hs
  · exact carryOut_keeps_nonZeroB (s := { s with host := rest }) hs h
  · exact hs
  · exact nonZeroB_of_unseeded (applyReset_bSeeded _)
  · exact nonZeroB_of_unseeded (applyReset_bSeeded _)

/-- Settles O51: generator B is unseeded right after reset. -/
theorem resetMeetsTheNonZeroInvariant : Obligations.ResetMeetsTheNonZeroInvariant :=
  fun _ _ _ => nonZeroB_of_unseeded rfl

/-- Settles O53: a run from reset starts with generator B unseeded, and every step keeps the invariant (O52). -/
theorem noReachableAllZeroGeneratorB : Obligations.NoReachableAllZeroGeneratorB := by
  intro s ⟨inputs, n, hrun⟩
  exact run_induction everyStepKeepsGeneratorBNonZero (nonZeroB_of_unseeded rfl) hrun

end Sys2Proof.Machine
end

