-- ==== Sys2Proof/Proofs/Unobserved.lean ====
section
/-!
What a generator holds while it is unseeded is never observed (10_state.md R36): `ObsEq` is a bisimulation of the step.
Each operation of the model takes alike states to alike results, and a run is made of steps.
-/
namespace Sys2Proof.Machine

/-- Two outcomes are alike when both are next states and a host cannot tell these apart. -/
def AlikeResults (x y : Result) : Prop := ∃ s' t', x = .next s' ∧ y = .next t' ∧ ObsEq s' t'

section
variable {s t : State}

theorem ObsEq.next (h : ObsEq s t) : AlikeResults (.next s) (.next t) := ⟨s, t, rfl, rfl, h⟩

theorem ObsEq.status_eq (h : ObsEq s t) : s.status = t.status :=
  status_congr h.aSeeded h.bSeeded h.errIll h.errUns

theorem ObsEq.setHost (h : ObsEq s t) (rest : List HostInput) :
    ObsEq { s with host := rest } { t with host := rest } := { h with host := rfl }

theorem ObsEq.writeAState (h : ObsEq s t) (a : Word) : ObsEq { s with aState := a } { t with aState := a } :=
  { h with aState := fun _ => rfl }

theorem ObsEq.writeBS (h : ObsEq s t) (b : BState) : ObsEq { s with bS := b } { t with bS := b } :=
  { h with bS := fun _ => rfl }

theorem ObsEq.seedA (h : ObsEq s t) (a : Word) :
    ObsEq { s with aState := a, aSeeded := true } { t with aState := a, aSeeded := true } :=
  { h with aSeeded := rfl, aState := fun _ => rfl }

theorem ObsEq.seedB (h : ObsEq s t) (e : Word) (b : BState) :
    ObsEq { s with eState := e, bS := b, bSeeded := true } { t with eState := e, bS := b, bSeeded := true } :=
  { h with bSeeded := rfl, bS := fun _ => rfl }

theorem ObsEq.respond (h : ObsEq s t) (code : RspCode) (data : Word) :
    ObsEq (respond code data s) (respond code data t) := { h with rsp := rfl }

theorem ObsEq.raise (h : ObsEq s t) (c : ErrorCause) : ObsEq (raise c s) (raise c t) := by
  cases c with
  | illegal => exact { h with rsp := rfl, errIll := rfl }
  | unseeded => exact { h with rsp := rfl, errUns := rfl }

theorem ObsEq.clearSticky (h : ObsEq s t) : ObsEq (clearSticky s) (clearSticky t) :=
  { h with errIll := rfl, errUns := rfl }

theorem ObsEq.takeResponse (h : ObsEq s t) : ObsEq (takeResponse s) (takeResponse t) :=
  { h with rsp := rfl, taken := by simp [h.taken, h.rsp] }

/-- RESET unseeds both generators, so the free values it draws need not agree. -/
theorem ObsEq.applyReset (h : ObsEq s t) : ObsEq (applyReset s) (applyReset t) where
  aSeeded := rfl
  bSeeded := rfl
  errIll := rfl
  errUns := rfl
  host := h.host
  rsp := rfl
  taken := h.taken
  aState := nofun
  bS := nofun

/-- The seeded guard (60_exceptions.md R83): an effect that reads a generator is run only where its words agree. -/
theorem ObsEq.whenSeeded (h : ObsEq s t) {seeded seeded' : Bool} {e e' : State} (hflag : seeded = seeded')
    (he : seeded = true → ObsEq e e') : AlikeResults (whenSeeded seeded e s) (whenSeeded seeded' e' t) := by
  subst hflag
  cases seeded with
  | true => exact (he rfl).next
  | false => exact (h.raise .unseeded).next

/-- No instruction tells alike states apart. -/
theorem ObsEq.exec (h : ObsEq s t) (i : Instr) : AlikeResults (exec i s) (exec i t) := by
  cases i with
  | aSeed seed => exact ((h.seedA seed).respond .ok 0).next
  | aNext =>
    rw [exec_aNext, exec_aNext]
    refine h.whenSeeded h.aSeeded fun hA => ?_
    rw [← h.aState hA]
    exact (h.writeAState _).respond _ _
  | aPeek =>
    rw [exec_aPeek, exec_aPeek]
    exact h.whenSeeded h.aSeeded fun hA => h.aState hA ▸ h.respond _ _
  | bSeed seed =>
    rw [exec_bSeed, exec_bSeed, expand_eq, expand_eq]
    exact ((h.seedB _ _).respond .ok 0).next
  | bNext =>
    rw [exec_bNext, exec_bNext]
    refine h.whenSeeded h.bSeeded fun hB => ?_
    rw [← h.bS hB]
    exact (h.writeBS _).respond _ _
  | bPeek idx =>
    rw [exec_bPeek, exec_bPeek]
    exact h.whenSeeded h.bSeeded fun hB => h.bS hB ▸ h.respond _ _
  | rdMin => exact (h.respond .ok minValue).next
  | rdMax => exact (h.respond .ok maxValue).next
  | rdStatus =>
    rw [exec_rdStatus, exec_rdStatus, h.status_eq]
    exact (h.respond _ _).next
  | clrStatus => exact (h.clearSticky.respond .ok 0).next

theorem ObsEq.carryOut (h : ObsEq s t) (r : Request) : AlikeResults (carryOut r s) (carryOut r t) := by
  cases hd : r.decode with
  | none =>
    rw [carryOut_of_illegal hd, carryOut_of_illegal hd]
    exact (h.raise .illegal).next
  | some i =>
    rw [carryOut_of_decode hd, carryOut_of_decode hd]
    exact h.exec i

theorem ObsEq.handle (h : ObsEq s t) (inp : HostInput) : AlikeResults (handle inp s) (handle inp t) := by
  cases inp with
  | command r => exact h.carryOut r
  | take => exact h.takeResponse.next
  | reset => exact h.applyReset.next
  | cutCommand r => exact h.applyReset.next

/-- Which action is next, and whether it waits, is the same in alike states. -/
theorem ObsEq.step (h : ObsEq s t) : AlikeResults (step s) (step t) := by
  have hready : s.reqReady = t.reqReady := congrArg Option.isNone h.rsp
  unfold Machine.step serveHost
  rw [← h.host, ← hready]
  cases s.host with
  | nil => exact h.next
  | cons inp rest =>
    dsimp only
    split
    · exact h.takeResponse.next
    · exact (h.setHost rest).handle inp

theorem ObsEq.run (h : ObsEq s t) (n : Nat) :
    AlikeResults (Host.Core.run core n s) (Host.Core.run core n t) := by
  induction n generalizing s t with
  | zero => exact h.next
  | succ n ih =>
    obtain ⟨s', t', hs, ht, h'⟩ := h.step
    rw [run_succ n hs, run_succ n ht]
    exact ih h'

end

/-- Settles O54: alike states have alike steps. -/
theorem unseededContentsStayHidden : Obligations.UnseededContentsStayHidden := fun _ _ h => h.step

/-- Two cores right after reset are alike whatever the unseeded registers and the counter hold. -/
theorem obsEq_reset (inputs : List HostInput) (a : Word) (b : BState) (e : Word) (d : Nat) :
    ObsEq { State.reset with host := inputs }
      { State.reset with host := inputs, aState := a, bS := b, eState := e, draws := d } where
  aSeeded := rfl
  bSeeded := rfl
  errIll := rfl
  errUns := rfl
  host := rfl
  rsp := rfl
  taken := rfl
  aState := nofun
  bS := nofun

/-- Settles O55: the two runs start alike, so every step of them is alike (O54). -/
theorem resetContentsAreNeverObserved : Obligations.ResetContentsAreNeverObserved := by
  intro inputs n a b e d
  obtain ⟨s, t, hs, ht, h⟩ := (obsEq_reset inputs a b e d).run n
  exact ⟨s, t, hs, ht, h.rsp, h.taken, h.status_eq⟩

end Sys2Proof.Machine
end

