-- ==== Sys2Proof/Proofs/Flags.lean ====
section
/-!
The flags, STATUS and who writes what (10_state.md R19 to R29, R35): what each instruction does to a flag or a register,
then what a command and a command sequence do to it.
-/
namespace Sys2Proof.Machine

/-- STATUS is the four flags from bit 0 up, and nothing above them (R26, R29). -/
theorem status_getLsbD (s : State) (n : Nat) :
    s.status.getLsbD n = [s.aSeeded, s.bSeeded, s.errIll, s.errUns].getD n false := by
  match n with
  | 0 | 1 | 2 | 3 =>
    simp only [State.status, BitVec.getLsbD_setWidth, BitVec.getLsbD_append, BitVec.getLsbD_ofBool]
    simp
  | n + 4 =>
    rw [State.status, BitVec.getLsbD_setWidth, BitVec.getLsbD_of_ge _ _ (Nat.le_add_left 4 n), Bool.and_false]
    rfl

/-- Settles O30, bit by bit. -/
theorem statusBitLayout : Obligations.StatusBitLayout := by
  intro s
  refine ⟨status_getLsbD s 0, status_getLsbD s 1, status_getLsbD s 2, status_getLsbD s 3, fun n hn => ?_⟩
  rw [status_getLsbD, List.getD_eq_getElem?_getD, List.getElem?_eq_none hn, Option.getD_none]

/-- Settles O19: the flags are 0 in State.reset, and STATUS and REQ_READY are views of it. -/
theorem resetStateFlags : Obligations.ResetStateFlags :=
  ⟨rfl, rfl, rfl, rfl, by decide, rfl, rfl⟩

/-- An instruction never responds ILLEGAL and sets no sticky bit but ERR_UNS, with UNSEEDED; CLR.STATUS clears both. -/
theorem exec_sticky {i : Instr} {s t : State} (h : exec i s = .next t) :
    ∃ p, t.rsp = some p ∧ p.code ≠ .illegal ∧
      t.errIll = (if i = .clrStatus then false else s.errIll) ∧
      t.errUns = (if p.code = .unseeded then true else if i = .clrStatus then false else s.errUns) := by
  cases exec_cases h <;> simp

/-- Settles O36: an illegal word sets ERR_ILL alone, and a legal one does what its instruction does. -/
theorem stickyBitWriters : Obligations.StickyBitWriters := by
  refine ⟨fun r s => ?_, fun s => ⟨applyReset_errIll s, applyReset_errUns s⟩⟩
  obtain ⟨t, h⟩ := carryOut_answers r s
  obtain ⟨i, hdecode, hexec⟩ | ⟨hdecode, rfl⟩ := carryOut_cases h
  · obtain ⟨p, hp, hlegal, hill, huns⟩ := exec_sticky hexec
    rw [Request.decode] at hdecode
    exact ⟨t, p, h, hp, by simpa [hdecode, hlegal] using hill, by simpa [hdecode] using huns⟩
  · rw [Request.decode] at hdecode
    exact ⟨_, _, h, raise_illegal_rsp s, by simp, by simp [hdecode]⟩

/-- A.SEED seeds generator A, B.SEED seeds generator B, and no other instruction writes a seeded flag (R24, R25). -/
theorem exec_seeded_iff {i : Instr} {s t : State} (h : exec i s = .next t) :
    (t.aSeeded = true ↔ s.aSeeded = true ∨ ∃ seed, i = .aSeed seed) ∧
    (t.bSeeded = true ↔ s.bSeeded = true ∨ ∃ seed, i = .bSeed seed) := by
  cases exec_cases h <;> simp

theorem carryOut_seeded_iff {r : Request} {s t : State} (h : carryOut r s = .next t) :
    (t.aSeeded = true ↔ s.aSeeded = true ∨ ∃ seed, r.decode = some (.aSeed seed)) ∧
    (t.bSeeded = true ↔ s.bSeeded = true ∨ ∃ seed, r.decode = some (.bSeed seed)) := by
  obtain ⟨i, hdecode, h⟩ | ⟨hdecode, rfl⟩ := carryOut_cases h
  · simpa [hdecode] using exec_seeded_iff h
  · simp [hdecode]

/-- A command sequence runs, and each seeded flag after it is 1 if it was or if a command of the sequence seeds. -/
theorem serveAll_seeded_iff (rs : List Request) (s : State) : ∃ t, serveAll rs s = .next t ∧
    (t.aSeeded = true ↔ s.aSeeded = true ∨ ∃ r ∈ rs, ∃ seed, r.decode = some (.aSeed seed)) ∧
    (t.bSeeded = true ↔ s.bSeeded = true ∨ ∃ r ∈ rs, ∃ seed, r.decode = some (.bSeed seed)) := by
  induction rs generalizing s with
  | nil => exact ⟨s, rfl, by simp, by simp⟩
  | cons r rs ih =>
    obtain ⟨u, hu⟩ := carryOut_answers r s
    obtain ⟨huA, huB⟩ := carryOut_seeded_iff hu
    obtain ⟨t, ht, hA, hB⟩ := ih (takeResponse u)
    rw [takeResponse_aSeeded, huA] at hA
    rw [takeResponse_bSeeded, huB] at hB
    exact ⟨t, (serveAll_cons rs hu).trans ht, by simpa [or_assoc] using hA, by simpa [or_assoc] using hB⟩

/-- Settles O37: with both flags 0 at the start, only the sequence's own seedings are left. -/
theorem seededFlagsRecordTheSeedings : Obligations.SeededFlagsRecordTheSeedings := by
  intro rs s hA hB
  obtain ⟨t, ht, htA, htB⟩ := serveAll_seeded_iff rs s
  exact ⟨t, ht, by simpa [hA, Request.decode] using htA, by simpa [hB, Request.decode] using htB⟩

/-- Generator A's registers change only in A.SEED and A.NEXT (R19, R24). -/
theorem exec_frameA {i : Instr} {s t : State} (h : exec i s = .next t) (hi : ∀ x, i ≠ .aSeed x) :
    t.aSeeded = s.aSeeded ∧ (i ≠ .aNext → t.aState = s.aState) := by
  cases exec_cases h with
  | aSeed seed => exact absurd rfl (hi seed)
  | aNext hA => exact ⟨rfl, fun hne => absurd rfl hne⟩
  | _ => exact ⟨rfl, fun _ => rfl⟩

/-- Generator B's registers change only in B.SEED and B.NEXT, and E_STATE only in B.SEED (R21, R25). -/
theorem exec_frameB {i : Instr} {s t : State} (h : exec i s = .next t) (hi : ∀ x, i ≠ .bSeed x) :
    t.bSeeded = s.bSeeded ∧ t.eState = s.eState ∧ (i ≠ .bNext → t.bS = s.bS) := by
  cases exec_cases h with
  | bSeed seed => exact absurd rfl (hi seed)
  | bNext hB => exact ⟨rfl, rfl, fun hne => absurd rfl hne⟩
  | _ => exact ⟨rfl, rfl, fun _ => rfl⟩

/-- Settles O38, from the frames of the two generators and of the channels. -/
theorem whoWritesWhat : Obligations.WhoWritesWhat := by
  intro i s
  obtain ⟨t, h⟩ := exec_answers i s
  obtain ⟨-, hhost, htaken, hdraws⟩ := exec_channels h
  obtain ⟨haSeeded, hbSeeded⟩ := exec_seeded_iff h
  exact ⟨t, h, exec_frameA h, exec_frameB h, fun hA => haSeeded.mpr (.inl hA), fun hB => hbSeeded.mpr (.inl hB),
    hhost, htaken, hdraws⟩

end Sys2Proof.Machine
end

