-- ==== Sys2Proof/Proofs/Sequences.lean ====
section
/-!
Command sequences (20_memory.md R43, R45). No command reads or writes the host's script, so carrying one out commutes with
setting the script; a run on a script of commands and takes is then the sequential meaning, two steps a command.
-/
namespace Sys2Proof.Machine

/-- Settles O40: the second seeding writes what the first one wrote. The engine's words depend on the seed alone. -/
theorem seedingTwiceIsSeedingOnce : Obligations.SeedingTwiceIsSeedingOnce := by
  intro seed s
  refine ⟨⟨_, exec_aSeed seed s, exec_aSeed seed _⟩, ⟨_, exec_bSeed seed s, ?_⟩⟩
  rw [exec_bSeed, expand_eq, expand_eq]
  rfl

section
variable {s t : State} {r : Request} {rest : List HostInput}

theorem exec_setHost {i : Instr} (h : exec i s = .next t) :
    exec i { s with host := rest } = .next { t with host := rest } := by
  cases exec_cases h with
  | aNext hs | aPeek hs | bNext hs | bPeek _ hs => exact whenSeeded_of_true hs _ _
  | aNextUnseeded hs | aPeekUnseeded hs | bNextUnseeded hs | bPeekUnseeded _ hs => exact whenSeeded_of_false hs _ _
  | aSeed seed => exact exec_aSeed seed _
  | bSeed seed => exact exec_bSeed seed _
  | rdMin => exact exec_rdMin _
  | rdMax => exact exec_rdMax _
  | rdStatus => exact exec_rdStatus _
  | clrStatus => exact exec_clrStatus _

theorem carryOut_setHost (h : carryOut r s = .next t) :
    carryOut r { s with host := rest } = .next { t with host := rest } := by
  obtain ⟨i, hdecode, h⟩ | ⟨hdecode, rfl⟩ := carryOut_cases h
  · rw [carryOut_of_decode hdecode]
    exact exec_setHost h
  · exact carryOut_of_illegal hdecode _

/-- With the response channel free, the command at the head of the script is accepted (30_encoding.md R50). -/
theorem step_command (hfree : s.rsp = none) :
    step { s with host := .command r :: rest } = carryOut r { s with host := rest } := by
  simp [step, serveHost, handle, State.reqReady, hfree]

theorem step_take : step { s with host := .take :: rest } = .next { takeResponse s with host := rest } := rfl

/-- A command and the taking of its response are two steps. -/
theorem run_command_take (n : Nat) (hfree : s.rsp = none) (h : carryOut r s = .next t) :
    Host.Core.run core (n + 2) { s with host := .command r :: .take :: rest } =
      Host.Core.run core n { takeResponse t with host := rest } := by
  rw [run_succ (n + 1) ((step_command hfree).trans (carryOut_setHost h)), run_succ n step_take]

end

/-- Settles O18, by induction on the sequence: after each command and its take the response channel is free again. -/
theorem sequencesRunInAcceptanceOrder : Obligations.SequencesRunInAcceptanceOrder := by
  intro rs s hfree
  induction rs generalizing s with
  | nil => rfl
  | cons r rs ih =>
    obtain ⟨t, h⟩ := carryOut_answers r s
    obtain ⟨-, hhost, -, -⟩ := carryOut_channels h
    rw [serveAll_cons rs h, ← ih (takeResponse t) (takeResponse_rsp t), takeResponse_host, hhost]
    exact run_command_take (2 * rs.length) hfree h

end Sys2Proof.Machine
end

