-- ==== Sys2Proof/Proofs/Generators.lean ====
section
/-!
The two generators share no state (20_memory.md R37): what a command of one of them answers and leaves there is the same
in every two states that agree on that generator. What it leaves alone is in Proofs/Flags.lean.
-/
namespace Sys2Proof.Machine

/-- Both outcomes are next states, and `view` sees the same in the two. -/
def SameNext {α : Type} (view : State → α) (x y : Result) : Prop :=
  ∃ s' t', x = .next s' ∧ y = .next t' ∧ view s' = view t'

/-- The response on offer and generator A. -/
def viewA (s : State) : Option Response × Word × Bool := (s.rsp, s.aState, s.aSeeded)

/-- The response on offer and generator B. -/
def viewB (s : State) : Option Response × BState × Bool := (s.rsp, s.bS, s.bSeeded)

section
variable {s t : State}

theorem sameNext_next {α : Type} {view : State → α} (h : view s = view t) : SameNext view (.next s) (.next t) :=
  ⟨s, t, rfl, rfl, h⟩

/-- The seeded guard takes the same branch in both states, so the view has to agree on each branch only. -/
theorem sameNext_whenSeeded {α : Type} {view : State → α} {seeded seeded' : Bool} {e e' : State}
    (hflag : seeded = seeded') (heffect : view e = view e')
    (hraise : view (raise .unseeded s) = view (raise .unseeded t)) :
    SameNext view (whenSeeded seeded e s) (whenSeeded seeded' e' t) := by
  subst hflag
  cases seeded with
  | true => exact sameNext_next heffect
  | false => exact sameNext_next hraise

theorem exec_sameNext_viewA {i : Instr} (hi : (∃ x, i = .aSeed x) ∨ i = .aNext ∨ i = .aPeek)
    (hstate : s.aState = t.aState) (hflag : s.aSeeded = t.aSeeded) : SameNext viewA (exec i s) (exec i t) := by
  have hraise : viewA (raise .unseeded s) = viewA (raise .unseeded t) := by simp [viewA, hstate, hflag]
  obtain ⟨seed, rfl⟩ | rfl | rfl := hi
  · exact sameNext_next rfl
  · rw [exec_aNext, exec_aNext, hstate]
    exact sameNext_whenSeeded hflag (by simp [viewA, hflag]) hraise
  · rw [exec_aPeek, exec_aPeek, hstate]
    exact sameNext_whenSeeded hflag (by simp [viewA, hstate, hflag]) hraise

theorem exec_sameNext_viewB {i : Instr} (hi : (∃ x, i = .bSeed x) ∨ i = .bNext ∨ ∃ idx, i = .bPeek idx)
    (hstate : s.bS = t.bS) (hflag : s.bSeeded = t.bSeeded) : SameNext viewB (exec i s) (exec i t) := by
  have hraise : viewB (raise .unseeded s) = viewB (raise .unseeded t) := by simp [viewB, hstate, hflag]
  obtain ⟨seed, rfl⟩ | rfl | ⟨idx, rfl⟩ := hi
  · rw [exec_bSeed, exec_bSeed, hstate]
    exact sameNext_next rfl
  · rw [exec_bNext, exec_bNext, hstate]
    exact sameNext_whenSeeded hflag (by simp [viewB, hflag]) hraise
  · rw [exec_bPeek, exec_bPeek, hstate]
    exact sameNext_whenSeeded hflag (by simp [viewB, hstate, hflag]) hraise

end

/-- Settles O57: the views give what a command reads, the frames of the two generators what it leaves alone. -/
theorem generatorsShareNoState : Obligations.GeneratorsShareNoState := by
  constructor
  · intro i s t hi hstate hflag
    obtain ⟨s', t', hs, ht, hview⟩ := exec_sameNext_viewA hi hstate hflag
    obtain ⟨hrsp, haState, haSeeded⟩ : s'.rsp = t'.rsp ∧ s'.aState = t'.aState ∧ s'.aSeeded = t'.aSeeded := by
      simpa [viewA] using hview
    obtain ⟨hnotSeed, hnotNext⟩ : (∀ x, i ≠ .bSeed x) ∧ i ≠ .bNext := by
      obtain ⟨seed, rfl⟩ | rfl | rfl := hi <;> simp
    obtain ⟨hbSeeded, heState, hbS⟩ := exec_frameB hs hnotSeed
    exact ⟨s', t', hs, ht, hrsp, haState, haSeeded, hbS hnotNext, hbSeeded, heState⟩
  · intro i s t hi hstate hflag
    obtain ⟨s', t', hs, ht, hview⟩ := exec_sameNext_viewB hi hstate hflag
    obtain ⟨hrsp, hbS, hbSeeded⟩ : s'.rsp = t'.rsp ∧ s'.bS = t'.bS ∧ s'.bSeeded = t'.bSeeded := by
      simpa [viewB] using hview
    obtain ⟨hnotSeed, hnotNext⟩ : (∀ x, i ≠ .aSeed x) ∧ i ≠ .aNext := by
      obtain ⟨seed, rfl⟩ | rfl | ⟨idx, rfl⟩ := hi <;> simp
    obtain ⟨haSeeded, haState⟩ := exec_frameA hs hnotSeed
    refine ⟨s', t', hs, ht, hrsp, hbS, hbSeeded, haState hnotNext, haSeeded, fun hnotBSeed => ?_⟩
    obtain ⟨-, heState, -⟩ := exec_frameB hs hnotBSeed
    exact heState

end Sys2Proof.Machine
end

