-- ==== Sys2Proof/Proofs/Systems.lean ====
section
/-!
Systems of cores (20_memory.md R47, 60_exceptions.md R91). A step never stops, so a step of core `k` is the update of one
place of a list by a function, and such updates at two places commute.
-/
namespace Sys2Proof.Machine

theorem handle_answers (inp : HostInput) (s : State) : ∃ t, handle inp s = .next t := by
  cases inp with
  | command r => exact carryOut_answers r s
  | take => exact ⟨_, rfl⟩
  | reset => exact ⟨_, rfl⟩
  | cutCommand r => exact ⟨_, rfl⟩

theorem step_answers (s : State) : ∃ t, step s = .next t := by
  unfold step serveHost
  split
  · exact ⟨_, rfl⟩
  · split
    · exact ⟨_, rfl⟩
    · exact handle_answers _ _

/-- The state a step answers; `step_eq_next` says that a step answers nothing else. -/
def nextState (s : State) : State :=
  match step s with
  | .next t => t
  | .fault _ => s
  | .refused _ => s

theorem step_eq_next (s : State) : step s = .next (nextState s) := by
  obtain ⟨t, h⟩ := step_answers s
  rw [nextState, h]

theorem modify_eq_set_of_getElem?_eq_some {sys : System} {k : Nat} {s : State} (f : State → State)
    (h : sys[k]? = some s) : sys.modify k f = sys.set k (f s) := by
  rw [@List.modify_eq_set _ ⟨s⟩, h, Option.getD_some]

/-- Place `k` takes its step, and a number beyond the system does nothing. -/
theorem stepCore_eq_modify (k : Nat) (sys : System) : System.stepCore k sys = .next (sys.modify k nextState) := by
  cases h : sys[k]? with
  | none => rw [System.stepCore, h, List.modify_eq_self (List.getElem?_eq_none_iff.mp h)]
  | some s => simp only [System.stepCore, h, step_eq_next, modify_eq_set_of_getElem?_eq_some nextState h]

/-- Settles O58, from the rules of `List.modify`. -/
theorem coresOfASystemAreIndependent : Obligations.CoresOfASystemAreIndependent := by
  refine ⟨fun sys k s hk => ?_, fun sys j k hjk => ?_, fun p => ?_⟩
  · refine ⟨_, _, step_eq_next s, stepCore_eq_modify k sys, ?_, fun j hj => ?_⟩
    · simp [hk]
    · simp [Ne.symm hj]
  · refine ⟨_, _, _, stepCore_eq_modify j sys, stepCore_eq_modify k _, stepCore_eq_modify k sys, ?_⟩
    rw [stepCore_eq_modify, List.modify_modify_ne _ _ _ hjk]
  · exact ⟨List.length_replicate, fun s hs => List.eq_of_mem_replicate hs⟩

end Sys2Proof.Machine
end

