-- ==== Sys2Proof/Proofs/Decoding.lean ====
section
/-!
Decoding and encoding (30_encoding.md R51 to R55). A command word is its three fields put together, so an equation
between words is one between fields. From this the decoder has one characterisation, `decode_eq_some_iff`: a word decodes
to an instruction exactly when it is the word that instruction encodes to and gives it its operands.
-/
namespace Sys2Proof.Machine

/-! The fields of a word put together from fields (R51). -/

/-- Bit by bit: the operation, then the index, then the reserved zeros. -/
theorem getLsbD_cmdWord (idx : BitVec 2) (op : BitVec 8) (j : Nat) :
    (cmdWord idx op).getLsbD j = if j < 8 then op.getLsbD j else idx.getLsbD (j - 8) := by
  have hidx : ¬ j - 8 < 2 → idx.getLsbD (j - 8) = false := fun h => BitVec.getLsbD_of_ge _ _ (Nat.le_of_not_lt h)
  simp only [cmdWord, BitVec.getLsbD_append, BitVec.getLsbD_zero]
  grind

@[simp] theorem opField_cmdWord (idx : BitVec 2) (op : BitVec 8) : opField (cmdWord idx op) = op := by
  apply BitVec.eq_of_getLsbD_eq
  intro j hj
  simp [opField, getLsbD_cmdWord, hj]

@[simp] theorem idxField_cmdWord (idx : BitVec 2) (op : BitVec 8) : idxField (cmdWord idx op) = idx := by
  apply BitVec.eq_of_getLsbD_eq
  intro j hj
  simp [idxField, getLsbD_cmdWord, hj]

@[simp] theorem rsvField_cmdWord (idx : BitVec 2) (op : BitVec 8) : rsvField (cmdWord idx op) = 0#22 := by
  apply BitVec.eq_of_getLsbD_eq
  intro j hj
  have notOp : ¬ 10 + j < 8 := by omega
  have notIdx : 2 ≤ 10 + j - 8 := by omega
  simp [rsvField, getLsbD_cmdWord, notOp, notIdx]

/-- A word whose reserved bits are 0 is its index and its operation put together. -/
theorem cmdWord_of_rsvField_eq_zero {c : CmdWord} (h : rsvField c = 0#22) : cmdWord (idxField c) (opField c) = c := by
  rw [cmdWord, ← h]
  apply BitVec.eq_of_getLsbD_eq
  intro j hj
  simp only [rsvField, idxField, opField, BitVec.getLsbD_append, BitVec.getLsbD_extractLsb']
  grind

/-- Two words are equal when their fields are. -/
theorem eq_cmdWord_iff {c : CmdWord} {idx : BitVec 2} {op : BitVec 8} :
    c = cmdWord idx op ↔ rsvField c = 0#22 ∧ idxField c = idx ∧ opField c = op := by
  constructor
  · rintro rfl
    simp
  · rintro ⟨hrsv, rfl, rfl⟩
    exact (cmdWord_of_rsvField_eq_zero hrsv).symm

/-! The decoder on the words of the encoder, and the other way round (R53, R54). -/

/-- An instruction's own word, with an operand it carries, decodes to the instruction. -/
theorem decode_cmd_encode (i : Instr) {o : Word} (h : carries i (encode i).cmd o) :
    decode (encode i).cmd o = some i := by
  cases i with
  | aSeed seed | bSeed seed => cases h; simp [decode, encode, decodeOp]
  | _ => simp [decode, encode, decodeOp]

/-- The encoder puts the seed in the operand and the index in the word. -/
theorem carries_encode (i : Instr) : carries i (encode i).cmd (encode i).operand := by
  cases i with
  | bPeek idx => exact (idxField_cmdWord idx 0x13#8).symm
  | _ => trivial

/-- Settles O2: the decoder goes by the word, and the fields come back because the encoding carries them. -/
theorem decodeOfEncode : Obligations.DecodeOfEncode :=
  fun i _ => decode_cmd_encode i (carries_encode i)

/-- R54's `case`: what OP alone decodes to encodes to the word of that OP with index 0. -/
theorem cmd_encode_of_decodeOp {op : BitVec 8} {o : Word} {i : Instr} (c : CmdWord) (h : decodeOp op o = some i) :
    (encode i).cmd = cmdWord 0 op ∧ carries i c o := by
  unfold decodeOp at h
  repeat' split at h
  all_goals cases h
  all_goals
    subst op
    exact ⟨rfl, by trivial⟩

/-- The branches of R54 that decode to something. -/
theorem decode_cases {c : CmdWord} {o : Word} {i : Instr} (h : decode c o = some i) : rsvField c = 0#22 ∧
    ((opField c = 0x13#8 ∧ i = .bPeek (idxField c)) ∨
     (opField c ≠ 0x13#8 ∧ idxField c = 0#2 ∧ decodeOp (opField c) o = some i)) := by
  unfold decode at h
  split at h
  next => cases h
  next hrsv =>
    refine ⟨Decidable.of_not_not hrsv, ?_⟩
    split at h
    next hop => cases h; exact .inl ⟨hop, rfl⟩
    next hop =>
      split at h
      next => cases h
      next hidx => exact .inr ⟨hop, Decidable.of_not_not hidx, h⟩

/-- A word decodes to an instruction exactly when it is the word of its encoding and gives it its operands. -/
theorem decode_eq_some_iff {c : CmdWord} {o : Word} {i : Instr} :
    decode c o = some i ↔ c = (encode i).cmd ∧ carries i c o := by
  constructor
  · intro h
    obtain ⟨hrsv, ⟨hop, rfl⟩ | ⟨-, hidx, hdecodeOp⟩⟩ := decode_cases h
    · exact ⟨eq_cmdWord_iff.mpr ⟨hrsv, rfl, hop⟩, rfl⟩
    · obtain ⟨hcmd, hcarries⟩ := cmd_encode_of_decodeOp c hdecodeOp
      exact ⟨hcmd ▸ eq_cmdWord_iff.mpr ⟨hrsv, hidx, rfl⟩, hcarries⟩
  · rintro ⟨rfl, hcarries⟩
    exact decode_cmd_encode i hcarries

/-- B.PEEK's word is no seeding command's, whatever its index. -/
theorem cmd_bPeek_ne_seeding (idx : BitVec 2) :
    ¬ ((encode (.bPeek idx)).cmd = 0x00000001#32 ∨ (encode (.bPeek idx)).cmd = 0x00000011#32) := by
  revert idx
  decide

/-- The operand of an encoding is 0 but where the instruction carries one. -/
theorem operand_encode {i : Instr} {c : CmdWord} {o : Word} (h : carries i c o) : (encode i).operand =
    if (encode i).cmd = 0x00000001#32 ∨ (encode i).cmd = 0x00000011#32 then o else 0 := by
  cases i with
  | aSeed seed | bSeed seed => cases h; rfl
  | bPeek idx => rw [if_neg (cmd_bPeek_ne_seeding idx)]; rfl
  | _ => rfl

/-- Settles O3: the word and the operand, from the decoder's characterisation. -/
theorem encodeOfDecode : Obligations.EncodeOfDecode := by
  intro c o i h
  obtain ⟨rfl, hcarries⟩ := decode_eq_some_iff.mp h
  exact ⟨rfl, operand_encode hcarries⟩

/-! The match and mask table (R53), the legal words (R55) and the operand (R52). -/

/-- B.PEEK's mask drops the index field and keeps the others. -/
theorem and_mask_bPeek_iff {c : CmdWord} :
    c &&& 0xfffffcff#32 = 0x00000013#32 ↔ rsvField c = 0#22 ∧ opField c = 0x13#8 := by
  have hmatch : 0x00000013#32 = cmdWord 0 0x13#8 := by decide
  have hrsv : rsvField (c &&& 0xfffffcff#32) = rsvField c := by
    rw [rsvField, BitVec.extractLsb'_and]
    exact BitVec.and_allOnes
  have hidx : idxField (c &&& 0xfffffcff#32) = 0#2 := by
    rw [idxField, BitVec.extractLsb'_and]
    exact BitVec.and_zero
  have hop : opField (c &&& 0xfffffcff#32) = opField c := by
    rw [opField, BitVec.extractLsb'_and]
    exact BitVec.and_allOnes
  rw [hmatch, eq_cmdWord_iff, hrsv, hidx, hop]
  simp

/-- The mask of every other operation keeps all 32 bits. -/
theorem and_fullMask_iff {c m : CmdWord} : c &&& 0xffffffff#32 = m ↔ c = m := by
  have hmask : 0xffffffff#32 = BitVec.allOnes 32 := rfl
  rw [hmask, BitVec.and_allOnes]

/-- A word that gives an instruction its operands meets its match and mask exactly when it is the instruction's word. -/
theorem and_maskBits_iff {c : CmdWord} {o : Word} {i : Instr} (h : carries i c o) :
    c &&& i.maskBits = i.matchBits ↔ c = (encode i).cmd := by
  cases i with
  | bPeek idx =>
    cases h
    refine and_mask_bPeek_iff.trans ?_
    rw [encode, eq_cmdWord_iff]
    simp
  | _ => exact and_fullMask_iff

/-- Settles O4: for a word that gives the operands, the table's row and the encoder's word are one condition. -/
theorem decodeIsTheMatchAndMaskTable : Obligations.DecodeIsTheMatchAndMaskTable := by
  intro c o i
  rw [decode_eq_some_iff]
  exact and_congr_left fun h => (and_maskBits_iff h).symm

/-- R55's three conditions, on the fields. -/
theorem legalCmd_iff {c : CmdWord} : legalCmd c = true ↔
    rsvField c = 0#22 ∧ opField c ∈ opValues ∧ (idxField c = 0#2 ∨ opField c = 0x13#8) := by
  simp [legalCmd, and_assoc]

theorem isSome_decodeOp_iff (op : BitVec 8) (o : Word) :
    (decodeOp op o).isSome = true ↔ op ∈ opValues ∧ op ≠ 0x13#8 := by
  unfold decodeOp
  repeat' split
  all_goals simp [opValues, *]

/-- The decoder accepts exactly the words that R55's account, written apart from it, calls legal. -/
theorem isSome_decode_iff {c : CmdWord} {o : Word} : (decode c o).isSome = true ↔ legalCmd c = true := by
  rw [legalCmd_iff]
  by_cases hrsv : rsvField c = 0#22
  · by_cases hop : opField c = 0x13#8
    · simp [decode, hrsv, hop, opValues]
    · by_cases hidx : idxField c = 0#2
      · simp [decode, hrsv, hop, hidx, isSome_decodeOp_iff]
      · simp [decode, hrsv, hop, hidx]
  · simp [decode, hrsv]

theorem decode_eq_none_iff {c : CmdWord} {o : Word} : decode c o = none ↔ ¬ legalCmd c = true := by
  rw [← Option.not_isSome_iff_eq_none, isSome_decode_iff]

/-- R55's list: the nine operations with IDX = 0 and the four B.PEEK words. -/
def legalWords : List CmdWord :=
  [0x00000001#32, 0x00000002#32, 0x00000003#32, 0x00000011#32, 0x00000012#32, 0x00000013#32, 0x00000113#32,
   0x00000213#32, 0x00000313#32, 0x00000021#32, 0x00000022#32, 0x00000031#32, 0x00000032#32]

theorem all_legalCmd_legalWords : legalWords.all legalCmd = true := by decide

theorem cmdWord_mem_legalWords : ∀ op ∈ opValues, ∀ idx : BitVec 2, idx = 0#2 ∨ op = 0x13#8 →
    cmdWord idx op ∈ legalWords := by decide

theorem legalCmd_iff_mem {c : CmdWord} : legalCmd c = true ↔ c ∈ legalWords := by
  constructor
  · intro h
    obtain ⟨hrsv, hop, hidx⟩ := legalCmd_iff.mp h
    rw [← cmdWord_of_rsvField_eq_zero hrsv]
    exact cmdWord_mem_legalWords _ hop _ hidx
  · exact List.all_eq_true.mp all_legalCmd_legalWords c

/-- Settles O5: both clauses say which words are legal, by the conditions and by the list. -/
theorem exactlyThirteenLegalWords : Obligations.ExactlyThirteenLegalWords := by
  refine ⟨fun c o => ?_, fun c o => isSome_decode_iff.trans legalCmd_iff_mem⟩
  rw [decode_eq_none_iff, legalCmd_iff, Decidable.not_and_iff_not_or_not,
    Decidable.not_and_iff_not_or_not, not_or]
  rfl

/-- Only a seeding command carries the operand (R52). -/
theorem decode_eq_of_not_seeding {c : CmdWord} (o o' : Word) (hA : c ≠ 0x00000001#32) (hB : c ≠ 0x00000011#32) :
    decode c o = decode c o' := by
  ext i
  rw [decode_eq_some_iff, decode_eq_some_iff]
  refine and_congr_right fun hcmd => ?_
  cases i with
  | aSeed seed => exact absurd hcmd hA
  | bSeed seed => exact absurd hcmd hB
  | _ => exact Iff.rfl

theorem index_cases : ∀ idx : BitVec 2, idx = 0#2 ∨ idx = 1#2 ∨ idx = 2#2 ∨ idx = 3#2 := by decide

/-- Settles O6: a command is carried out as what it decodes to, which for no other word depends on the operand. -/
theorem operandOnlyReachesTheSeedingCommands : Obligations.OperandOnlyReachesTheSeedingCommands := by
  refine ⟨fun o => ⟨decode_cmd_encode (.aSeed o) rfl, decode_cmd_encode (.bSeed o) rfl⟩,
    fun c o o' s hA hB => ?_, fun b idx => ?_⟩
  · rw [carryOut, carryOut, Request.decode, Request.decode, decode_eq_of_not_seeding o o' hA hB]
  · obtain rfl | rfl | rfl | rfl := index_cases idx <;> rfl

/-- Settles O1: each legal word is the encoding of its operation, and the illegal ones break a condition of R55. -/
theorem decodeOfTheSpecsWords : Obligations.DecodeOfTheSpecsWords := by
  intro o
  exact ⟨decode_cmd_encode (.aSeed o) rfl, decode_cmd_encode .bNext trivial, decode_cmd_encode (.bSeed o) rfl,
    decode_cmd_encode (.bPeek 1#2) rfl, decode_cmd_encode (.bPeek 3#2) rfl, decode_cmd_encode .clrStatus trivial,
    decode_eq_none_iff.mpr (by decide), decode_eq_none_iff.mpr (by decide), decode_eq_none_iff.mpr (by decide),
    decode_eq_none_iff.mpr (by decide)⟩

end Sys2Proof.Machine
end

