-- ==== Sys2Proof/Proofs/Assembling.lean ====
section
/-!
The assembler (30_encoding.md R57). A line in its abstract form assembles to the encoding of its instruction or, out of
range, to nothing. A text without a line break is one line; of such a line the proofs follow the stages of
`assembleText1` in order: the comment is dropped, the line is cut into words, the words are read.
-/
namespace Sys2Proof.Machine

/-! Lines in their abstract form. -/

/-- R57's word of B.PEEK, for each index in range. -/
theorem bPeek_word : ∀ i < 4, 0x00000013#32 + (BitVec.ofNat 32 i <<< 8) = cmdWord (BitVec.ofNat 2 i) 0x13#8 := by
  decide

theorem assembleLine_of_wellFormed {l : AsmLine} (h : l.wellFormed = true) :
    assembleLine l = some (encode (instrOfLine l)) := by
  unfold assembleLine
  rw [if_pos h]
  cases l with
  | bPeek i =>
    have hi : i < 4 := of_decide_eq_true h
    simp only [bPeek_word i hi, instrOfLine, encode]
  | _ => rfl

theorem assembleLine_of_illFormed {l : AsmLine} (h : l.wellFormed = false) : assembleLine l = none := by
  unfold assembleLine
  rw [h, if_neg Bool.false_ne_true]

/-- Settles O8: a line in range is the encoder's word, which decodes to its instruction (O2). -/
theorem assembledLineIsTheEncoding : Obligations.AssembledLineIsTheEncoding := fun _ =>
  ⟨fun h => ⟨assembleLine_of_wellFormed h, decode_cmd_encode _ (carries_encode _)⟩, assembleLine_of_illFormed⟩

/-- Settles O7: in range each row of the table is the encoder's word, out of range there is none. -/
theorem assemblerTable : Obligations.AssemblerTable := by
  refine ⟨fun n hn => ⟨?_, ?_⟩, fun n hn => ⟨?_, ?_⟩, rfl, rfl, rfl, rfl, fun n hn => ?_, rfl, rfl, rfl, rfl, rfl, rfl,
    rfl⟩
  · exact assembleLine_of_wellFormed (l := .aSeed n) (decide_eq_true hn)
  · exact assembleLine_of_wellFormed (l := .bSeed n) (decide_eq_true hn)
  · exact assembleLine_of_illFormed (decide_eq_false (Nat.not_lt.mpr hn))
  · exact assembleLine_of_illFormed (decide_eq_false (Nat.not_lt.mpr hn))
  · exact assembleLine_of_illFormed (decide_eq_false (Nat.not_lt.mpr hn))

/-! Texts of one line. -/

theorem splitLines_of_no_break {text : List Char} (h : '\n' ∉ text) (line : List Char) :
    splitLines text line = [line.reverse ++ text] := by
  induction text generalizing line with
  | nil => rw [splitLines, List.append_nil]
  | cons c cs ih =>
    obtain ⟨hc, hcs⟩ := List.ne_and_not_mem_of_not_mem_cons h
    rw [splitLines, if_neg (Ne.symm hc), ih hcs, List.reverse_cons, List.append_assoc, List.singleton_append]

theorem assembleLines_singleton (line : List Char) : assembleLines [line] = assembleText1 line := by
  cases h : assembleText1 line <;> simp [assembleLines, h]

/-- A text without a line break assembles as its one line. -/
theorem assemble_of_no_break {text : List Char} (h : '\n' ∉ text) : assemble text = assembleText1 text := by
  rw [assemble, splitLines_of_no_break h, List.reverse_nil, List.nil_append, assembleLines_singleton]

theorem dropComment_append_comment (line comment : List Char) :
    dropComment (line ++ ';' :: comment) = dropComment line := by
  induction line with
  | nil => rfl
  | cons c cs ih => simp only [List.cons_append, dropComment, ih]

theorem dropComment_of_no_comment {line : List Char} (h : ';' ∉ line) : dropComment line = line := by
  induction line with
  | nil => rfl
  | cons c cs ih =>
    obtain ⟨hc, hcs⟩ := List.ne_and_not_mem_of_not_mem_cons h
    rw [dropComment, if_neg (Ne.symm hc), ih hcs]

/-- Settles O10: the text with the comment is still one line, and its comment is the first thing dropped. -/
theorem commentsMeanNothing : Obligations.CommentsMeanNothing := by
  intro line comment hline hcomment
  have hbreak : '\n' ∉ line ++ ';' :: comment := by simp [hline, hcomment]
  rw [assemble_of_no_break hbreak, assemble_of_no_break hline, assembleText1, assembleText1,
    dropComment_append_comment]

/-! The words of a line. -/

/-- Without a blank left, the word being read runs to the end of the line. -/
theorem splitWords_last {w : List Char} (hblank : ∀ c ∈ w, isBlank c = false) (word : List Char)
    (hne : word.reverse ++ w ≠ []) : splitWords w word = [word.reverse ++ w] := by
  induction w generalizing word with
  | nil => simp_all [splitWords]
  | cons c cs ih =>
    obtain ⟨hc, hcs⟩ := List.forall_mem_cons.mp hblank
    rw [splitWords, hc, if_neg Bool.false_ne_true, ih hcs (c :: word) (by simp)]
    simp

/-! Decimal literals. -/

theorem decDigit_of_isDigit {c : Char} (h : c.isDigit = true) : decDigit c = some (c.toNat - 48) :=
  if_pos (Char.isDigit_iff_toNat.mp h)

theorem readDec_of_digits {ds : List Char} (h : ∀ c ∈ ds, c.isDigit = true) (acc : Nat) :
    readDec ds acc = some (Nat.ofDigitChars 10 ds acc) := by
  induction ds generalizing acc with
  | nil => rfl
  | cons c cs ih =>
    obtain ⟨hc, hcs⟩ := List.forall_mem_cons.mp h
    simp only [readDec, decDigit_of_isDigit hc, ih hcs, Nat.ofDigitChars_cons]
    rw [Nat.mul_comm]
    rfl

/-- A literal of decimal digits is not taken for a hexadecimal one: `x` is no digit. -/
theorem readLiteral_of_digits {ds : List Char} (hne : ds ≠ []) (h : ∀ c ∈ ds, c.isDigit = true) :
    readLiteral ds = some (Nat.ofDigitChars 10 ds 0) := by
  rw [← readDec_of_digits h]
  unfold readLiteral
  split
  · exact absurd rfl hne
  · exact absurd (h 'x' (by simp)) (by decide)
  · exact absurd (h 'x' (by simp)) (by decide)
  · rfl

theorem isDigit_of_mem_decimal {n : Nat} : ∀ c ∈ Nat.toDigits 10 n, c.isDigit = true :=
  fun _ hc => Nat.isDigit_of_mem_toDigits (by decide) (Nat.le_refl 10) hc

theorem readLiteral_toDigits (n : Nat) : readLiteral (Nat.toDigits 10 n) = some n := by
  rw [readLiteral_of_digits Nat.toDigits_ne_nil isDigit_of_mem_decimal, Nat.ofDigitChars_ten_toDigits]

/-! `a.seed` with a decimal literal. -/

/-- The text `a.seed ` and the decimal digits of `n`. -/
def aSeedText (n : Nat) : List Char := ['a', '.', 's', 'e', 'e', 'd', ' '] ++ Nat.toDigits 10 n

theorem notMem_aSeedText {c : Char} (n : Nat) (hmnemonic : c ∉ ['a', '.', 's', 'e', 'e', 'd', ' '])
    (hdigit : c.isDigit = false) : c ∉ aSeedText n := by
  intro hc
  obtain hc | hc := List.mem_append.mp hc
  · exact hmnemonic hc
  · exact absurd (isDigit_of_mem_decimal c hc) (by simp [hdigit])

theorem isBlank_of_isDigit {c : Char} (h : c.isDigit = true) : isBlank c = false := by
  refine Bool.eq_false_iff.mpr fun hblank => ?_
  obtain (rfl | rfl) | rfl : (c = ' ' ∨ c = '\t') ∨ c = '\r' := by simpa [isBlank] using hblank
  all_goals exact absurd h (by decide)

theorem splitWords_aSeedText (n : Nat) :
    splitWords (aSeedText n) [] = [['a', '.', 's', 'e', 'e', 'd'], Nat.toDigits 10 n] := by
  calc splitWords (aSeedText n) []
    _ = ['a', '.', 's', 'e', 'e', 'd'] :: splitWords (Nat.toDigits 10 n) [] := rfl
    _ = [['a', '.', 's', 'e', 'e', 'd'], Nat.toDigits 10 n] := by
      rw [splitWords_last (fun c hc => isBlank_of_isDigit (isDigit_of_mem_decimal c hc)) [] Nat.toDigits_ne_nil]
      rfl

theorem assemble_aSeedText (n : Nat) : assemble (aSeedText n) = (assembleLine (.aSeed n)).map fun r => [r] := by
  rw [assemble_of_no_break (notMem_aSeedText n (by decide) (by decide)), assembleText1,
    dropComment_of_no_comment (notMem_aSeedText n (by decide) (by decide)), splitWords_aSeedText]
  simp only [readWords, readLiteral_toDigits]
  rfl

/-- Settles O9: the text is read as the line `a.seed n`, which R57's range check takes or rejects (O7). -/
theorem decimalLiteralsAreReadExactly : Obligations.DecimalLiteralsAreReadExactly := by
  obtain ⟨hinRange, houtOfRange, -⟩ := assemblerTable
  refine fun n => ⟨fun hn => (assemble_aSeedText n).trans ?_, fun hn => (assemble_aSeedText n).trans ?_⟩
  · rw [(hinRange n hn).1, Option.map_some]
  · rw [(houtOfRange n hn).1, Option.map_none]

end Sys2Proof.Machine
end

