-- ==== Sys2Proof/Proofs/Commands.lean ====
section
/-!
One command on offer (30_encoding.md R50, R54, R56): with the response channel free the step carries it out, and while a
response is on offer the command waits. What a command can leave in B_S follows from what each instruction can do.
-/
namespace Sys2Proof.Machine

section
variable {s : State} {rest : List HostInput}

theorem step_of_command {r : Request} (hhost : s.host = .command r :: rest) (hfree : s.rsp = none) :
    step s = carryOut r { s with host := rest } := by
  have hs : s = { s with host := .command r :: rest } := by rw [← hhost]
  rw [hs]
  exact step_command hfree

theorem step_of_waiting {inp : HostInput} (hhost : s.host = inp :: rest) (hneeds : inp.needsReady = true)
    (hrsp : s.rsp ≠ none) : step s = .next (takeResponse s) := by
  have hbusy : s.reqReady = false := by simpa [State.reqReady, Option.isSome_iff_ne_none] using hrsp
  simp [step, serveHost, hhost, hneeds, hbusy]

end

/-- Settles O11: the step carries the request out, and a request that decodes is carried out as its instruction. -/
theorem stepRunsTheDecodedCommand : Obligations.StepRunsTheDecodedCommand := by
  intro s r rest i hhost hfree _ hdecode
  rw [step_of_command hhost hfree]
  exact carryOut_of_decode hdecode _

/-- Settles O14: the command is carried out, and carrying out responds and leaves the host's own alone. -/
theorem oneResponsePerCommand : Obligations.OneResponsePerCommand := by
  intro s r rest hhost hfree
  obtain ⟨t, ht⟩ := carryOut_answers r { s with host := rest }
  obtain ⟨⟨p, hp⟩, hthost, htaken, -⟩ := carryOut_channels ht
  refine ⟨t, p, (step_of_command hhost hfree).trans ht, hp, hthost, htaken, ?_⟩
  rw [State.reqReady, hp, Option.isNone_some]

/-- Settles O15: the step is the host's taking of the response, which touches the channel and the record only. -/
theorem commandWaitsForTheResponseToBeTaken : Obligations.CommandWaitsForTheResponseToBeTaken := by
  intro s inp rest p hhost hneeds hrsp
  rw [step_of_waiting hhost hneeds (by simp [hrsp]), takeResponse, hrsp, Option.toList_some]

/-- The expansion in R71's closed form: word `k` is the mix of the seed plus `k + 1` times GAMMA. -/
theorem expand_bS_multiples (seed : Word) (b : BState) : (expand seed b).bS =
    ⟨mix64 (seed + 1#64 * gamma), mix64 (seed + 2#64 * gamma), mix64 (seed + 3#64 * gamma),
     mix64 (seed + 4#64 * gamma)⟩ := by
  have next (m n : Word) (h : n = m + 1#64) : seed + n * gamma = seed + m * gamma + gamma := by
    rw [h, BitVec.add_mul, BitVec.one_mul, BitVec.add_assoc]
  rw [expand_bS, next 3#64 4#64 (by decide), next 2#64 3#64 (by decide), next 1#64 2#64 (by decide), BitVec.one_mul]

/-- What an instruction can leave in B_S: what was there, its advance, or an expansion of the seed it carries (R21). -/
theorem exec_bS {i : Instr} {s t : State} (h : exec i s = .next t) :
    t.bS = s.bS ∨ t.bS = adv s.bS ∨ ∃ seed, i = .bSeed seed ∧ t.bS = (expand seed s.bS).bS := by
  cases exec_cases h with
  | bSeed seed => exact .inr (.inr ⟨seed, rfl, rfl⟩)
  | bNext hB => exact .inr (.inl rfl)
  | _ => exact .inl rfl

/-- Settles O39: only B.SEED's own word decodes to B.SEED, and it carries the operand as its seed (R52, R53). -/
theorem noCommandLoadsRawWordsIntoB : Obligations.NoCommandLoadsRawWordsIntoB := by
  intro r s
  obtain ⟨t, h⟩ := carryOut_answers r s
  refine ⟨t, h, ?_⟩
  obtain ⟨i, hdecode, hexec⟩ | ⟨-, rfl⟩ := carryOut_cases h
  · obtain hkept | hadv | ⟨seed, rfl, hexpand⟩ := exec_bS hexec
    · exact .inl hkept
    · exact .inr (.inl hadv)
    · obtain ⟨hword, rfl⟩ := decode_eq_some_iff.mp hdecode
      exact .inr (.inr ⟨hword, hexpand.trans (expand_bS_multiples _ _)⟩)
  · exact .inl (raise_illegal_bS s)

end Sys2Proof.Machine
end

