-- ==== Sys2Proof/Proofs/Mixing.lean ====
section
/-!
The mix function is a bijection (40_generator_a.md R59, R60). Each of its five steps has an inverse: an xor-shift is
undone by the sum of its shifts, which telescopes, and a multiplication by the constant's inverse modulo 2^64.
-/
namespace Sys2Proof.Machine

/-- Settles O42: `mix64` is these steps by definition, and on 0 they are computed. -/
theorem mixIsTheThreeSteps : Obligations.MixIsTheThreeSteps := by
  constructor
  · intro z
    simp only [mix64, xorShift, mixM1, mixM2]
  · decide

/-! The xor-shift and R60's sum of shifts, by the number of shifts in the sum. -/

/-- `y ^ (y >> k) ^ (y >> 2k) ^ …` with `n` terms (R60). -/
def shiftSum (k : Nat) (y : Word) : Nat → Word
  | 0 => 0
  | n + 1 => shiftSum k y n ^^^ (y >>> (n * k))

theorem foldl_range_eq_shiftSum (k : Nat) (y : Word) (n : Nat) :
    (List.range n).foldl (fun acc j => acc ^^^ (y >>> (j * k))) 0#64 = shiftSum k y n := by
  induction n with
  | zero => rfl
  | succ n ih => rw [List.range_succ, List.foldl_append, ih]; rfl

theorem unXorShift_eq_shiftSum (k : Nat) (y : Word) : unXorShift k y = shiftSum k y 64 :=
  foldl_range_eq_shiftSum k y 64

theorem xorShift_xor (k : Nat) (x y : Word) : xorShift k (x ^^^ y) = xorShift k x ^^^ xorShift k y := by
  simp only [xorShift, BitVec.ushiftRight_xor_distrib]
  ac_rfl

theorem xorShift_ushiftRight (k m : Nat) (z : Word) : xorShift k (z >>> m) = xorShift k z >>> m := by
  rw [xorShift, xorShift, BitVec.ushiftRight_xor_distrib, ← BitVec.shiftRight_add, ← BitVec.shiftRight_add,
    Nat.add_comm]

/-- The terms of the sum cancel in pairs: only the first and the one after the last remain. -/
theorem shiftSum_xorShift (k : Nat) (z : Word) (n : Nat) :
    shiftSum k (xorShift k z) n = z ^^^ (z >>> (n * k)) := by
  induction n with
  | zero => simp [shiftSum]
  | succ n ih =>
    have hterm : xorShift k z >>> (n * k) = z >>> (n * k) ^^^ z >>> ((n + 1) * k) := by
      rw [xorShift, BitVec.ushiftRight_xor_distrib, ← BitVec.shiftRight_add, Nat.add_comm, ← Nat.succ_mul]
    rw [shiftSum, ih, hterm, BitVec.xor_assoc, ← BitVec.xor_assoc (z >>> (n * k)), BitVec.xor_self, BitVec.zero_xor]

theorem xorShift_shiftSum (k : Nat) (z : Word) (n : Nat) :
    xorShift k (shiftSum k z n) = shiftSum k (xorShift k z) n := by
  induction n with
  | zero => simp [shiftSum, xorShift]
  | succ n ih => rw [shiftSum, xorShift_xor, ih, xorShift_ushiftRight, shiftSum]

/-- With 64 terms the one after the last is shifted out of the word. -/
theorem unXorShift_xorShift {k : Nat} (hk : 1 ≤ k) (z : Word) : unXorShift k (xorShift k z) = z := by
  rw [unXorShift_eq_shiftSum, shiftSum_xorShift, BitVec.ushiftRight_eq_zero (Nat.le_mul_of_pos_right 64 hk),
    BitVec.xor_zero]

theorem xorShift_unXorShift {k : Nat} (hk : 1 ≤ k) (z : Word) : xorShift k (unXorShift k z) = z := by
  rw [unXorShift_eq_shiftSum, xorShift_shiftSum, ← unXorShift_eq_shiftSum, unXorShift_xorShift hk]

/-! The multiplications, and the five steps together. -/

/-- R60's inverse constants, by computing the two products modulo 2^64. -/
theorem mixM1_mul_inverse : mixM1 * 0x96de1b173f119089#64 = 1#64 := by decide

theorem mixM2_mul_inverse : mixM2 * 0x319642b2d24d8ec3#64 = 1#64 := by decide

theorem mul_mul_of_inverse {c d : Word} (h : c * d = 1#64) (z : Word) : z * c * d = z := by
  rw [BitVec.mul_assoc, h, BitVec.mul_one]

theorem mix64Inv_mix64 (z : Word) : mix64Inv (mix64 z) = z := by
  rw [mix64Inv, mix64, unXorShift_xorShift (by decide), mul_mul_of_inverse mixM2_mul_inverse,
    unXorShift_xorShift (by decide), mul_mul_of_inverse mixM1_mul_inverse, unXorShift_xorShift (by decide)]

theorem mix64_mix64Inv (z : Word) : mix64 (mix64Inv z) = z := by
  rw [mix64, mix64Inv, xorShift_unXorShift (by decide),
    mul_mul_of_inverse ((BitVec.mul_comm _ _).trans mixM1_mul_inverse), xorShift_unXorShift (by decide),
    mul_mul_of_inverse ((BitVec.mul_comm _ _).trans mixM2_mul_inverse), xorShift_unXorShift (by decide)]

theorem mix64_injective : Function.Injective mix64 :=
  Function.LeftInverse.injective mix64Inv_mix64

/-- Settles O43: the inverse undoes the five steps one by one. -/
theorem mixIsABijection : Obligations.MixIsABijection :=
  ⟨fun z => ⟨mix64Inv_mix64 z, mix64_mix64Inv z⟩,
    fun _ z hk => ⟨unXorShift_xorShift hk z, xorShift_unXorShift hk z⟩, mixM1_mul_inverse, mixM2_mul_inverse⟩

end Sys2Proof.Machine
end

