-- ==== Sys2Proof/Proofs/GeneratorA.lean ====
section
/-!
Generator A's commands, and the run of A.NEXTs after A.SEED (40_generator_a.md R61 to R64). GAMMA is odd, so its multiples
repeat only after 2^64; the mix of different states is different (Proofs/Mixing.lean).
-/
namespace Sys2Proof.Machine

/-- Settles O22: A.SEED has no guard, so `exec_aSeed` is its meaning in every state. -/
theorem aSeedLoadsTheSeed : Obligations.ASeedLoadsTheSeed :=
  fun seed s => ⟨decode_cmd_encode (.aSeed seed) rfl, exec_aSeed seed s⟩

/-- Settles O23: the guard is open or closed. -/
theorem aNextAdvancesAndMixesTheNewState : Obligations.ANextAdvancesAndMixesTheNewState := by
  intro s
  refine ⟨fun _ => decode_cmd_encode .aNext trivial, fun hseeded => ?_, fun hunseeded => ?_⟩
  · rw [exec_aNext, whenSeeded_of_true hseeded, respond, gamma]
  · exact whenSeeded_of_false hunseeded _ s

/-- Settles O24: the guard is open or closed; seeding with the state that was shown writes what is there. -/
theorem aPeekShowsTheStateAndChangesNothing : Obligations.APeekShowsTheStateAndChangesNothing := by
  intro s
  refine ⟨fun _ => decode_cmd_encode .aPeek trivial, fun hseeded => ?_, fun hunseeded => ?_⟩
  · refine ⟨respond .ok s.aState s, s.aState, whenSeeded_of_true hseeded _ s, rfl, respond_rsp .ok s.aState s, ?_⟩
    rw [exec_aSeed, ← hseeded]
    rfl
  · exact whenSeeded_of_false hunseeded _ s

/-! The run of A.NEXTs (R63). -/

/-- `s` after an A.NEXT that leaves `a` in A_STATE (R62). -/
def afterANext (a : Word) (s : State) : State := respond .ok (mix64 a) { s with aState := a }

@[simp] theorem afterANext_aState (a : Word) (s : State) : (afterANext a s).aState = a := rfl
@[simp] theorem afterANext_aSeeded (a : Word) (s : State) : (afterANext a s).aSeeded = s.aSeeded := rfl
@[simp] theorem afterANext_rsp (a : Word) (s : State) : (afterANext a s).rsp = some ⟨.ok, mix64 a⟩ := rfl

/-- A later A.NEXT overwrites what an earlier one wrote. -/
@[simp] theorem afterANext_afterANext (a b : Word) (s : State) : afterANext b (afterANext a s) = afterANext b s := rfl

theorem exec_aNext_of_seeded {s : State} (h : s.aSeeded = true) :
    exec .aNext s = .next (afterANext (s.aState + gamma) s) := by
  rw [exec_aNext, whenSeeded_of_true h, afterANext]

/-- `n + 1` A.NEXTs add `n + 1` times GAMMA and respond with the mix of the last state. -/
theorem repeatExec_aNext_succ {s : State} (h : s.aSeeded = true) (n : Nat) :
    repeatExec .aNext (n + 1) s = .next (afterANext (s.aState + BitVec.ofNat 64 (n + 1) * gamma) s) := by
  induction n generalizing s with
  | zero => rw [repeatExec_succ 0 (exec_aNext_of_seeded h), repeatExec, BitVec.one_mul]
  | succ n ih =>
    have hsum : s.aState + gamma + BitVec.ofNat 64 (n + 1) * gamma =
        s.aState + BitVec.ofNat 64 (n + 1 + 1) * gamma := by
      rw [BitVec.ofNat_add (n + 1) 1, BitVec.add_mul, BitVec.one_mul, BitVec.add_assoc, BitVec.add_comm gamma]
    rw [repeatExec_succ (n + 1) (exec_aNext_of_seeded h), ih ((afterANext_aSeeded _ s).trans h), afterANext_aState,
      afterANext_afterANext, hsum]

theorem repeatExec_aNext {s : State} (h : s.aSeeded = true) {k : Nat} (hk : 1 ≤ k) :
    repeatExec .aNext k s = .next (afterANext (s.aState + BitVec.ofNat 64 k * gamma) s) := by
  obtain ⟨n, rfl⟩ := Nat.exists_eq_add_of_le' hk
  exact repeatExec_aNext_succ h n

theorem eq_afterANext_of_repeatExec {s t : State} (h : s.aSeeded = true) {k : Nat} (hk : 1 ≤ k)
    (ht : repeatExec .aNext k s = .next t) : t = afterANext (s.aState + BitVec.ofNat 64 k * gamma) s :=
  next_inj (ht.symm.trans (repeatExec_aNext h hk))

/-- GAMMA is odd, so two multiples of it are equal only when the factors are, modulo 2^64. -/
theorem add_ofNat_mul_gamma_inj {a : Word} {j k : Nat} :
    a + BitVec.ofNat 64 j * gamma = a + BitVec.ofNat 64 k * gamma ↔ j % 2 ^ 64 = k % 2 ^ 64 := by
  have hgamma : gamma * 0xf1de83e19937733d#64 = 1#64 := by decide
  have hmul : Function.Injective fun z : Word => z * gamma :=
    Function.LeftInverse.injective (g := (· * 0xf1de83e19937733d#64)) (mul_mul_of_inverse hgamma)
  rw [BitVec.add_right_inj, hmul.eq_iff, ← BitVec.toNat_inj, BitVec.toNat_ofNat, BitVec.toNat_ofNat]

theorem add_ofNat_mul_gamma_eq_self_iff {a : Word} {k : Nat} :
    a + BitVec.ofNat 64 k * gamma = a ↔ k % 2 ^ 64 = 0 := by
  simpa using add_ofNat_mul_gamma_inj (a := a) (j := k) (k := 0)

/-- Settles O50: the `k`-th state is the seed plus `k` times GAMMA, and both these and their mixes are distinct while `k`
is within 2^64. -/
theorem twoToTheSixtyFourDistinctOutputs : Obligations.TwoToTheSixtyFourDistinctOutputs := by
  intro seed s0
  obtain ⟨s, hexec, hseeded, rfl⟩ : ∃ s, exec (.aSeed seed) s0 = .next s ∧ s.aSeeded = true ∧ s.aState = seed :=
    ⟨_, exec_aSeed seed s0, rfl, rfl⟩
  refine ⟨s, hexec, fun k => ?_, fun j k tj tk hj hjk hk htj htk => ?_, fun k t hk hk' ht => ?_⟩
  · obtain rfl | hk := Nat.eq_zero_or_pos k
    · exact ⟨s, rfl, by simp, by simp⟩
    · exact ⟨_, repeatExec_aNext hseeded hk, rfl, fun _ => rfl⟩
  · obtain rfl := eq_afterANext_of_repeatExec hseeded hj htj
    obtain rfl := eq_afterANext_of_repeatExec hseeded (Nat.le_trans hj (Nat.le_of_lt hjk)) htk
    have hstates : s.aState + BitVec.ofNat 64 j * gamma ≠ s.aState + BitVec.ofNat 64 k * gamma := by
      rw [ne_eq, add_ofNat_mul_gamma_inj]
      omega
    exact ⟨hstates, by simpa [mix64_injective.eq_iff] using hstates⟩
  · obtain rfl := eq_afterANext_of_repeatExec hseeded hk ht
    rw [afterANext_aState, add_ofNat_mul_gamma_eq_self_iff]
    omega

end Sys2Proof.Machine
end

