-- ==== Sys2Proof/Proofs/ScrambleAdvance.lean ====
section
/-!
Generator B's two functions are bijections (41_generator_b.md R65 to R67). A rotation is undone by the rotation over the
rest of the word, the multiplications by 5 and 9 by those with their inverses modulo 2^64, and the xor-shift
`s1 ^ (s1 << 17)` in the advance by the sum of its shifts, whose terms cancel until one is shifted out of the word.
-/
namespace Sys2Proof.Machine

/-- Rotations whose amounts add up to the word's width return every bit to its place. -/
theorem rotl64_rotl64_of_add_eq {k m : Nat} {hk : 0 < k ∧ k < 64} {hm : 0 < m ∧ m < 64} (h : k + m = 64)
    (x : Word) : rotl64 (rotl64 x k hk) m hm = x := by
  apply BitVec.eq_of_getLsbD_eq
  intro i hi
  have hround : ((i + k) % 64 + m) % 64 = i := by omega
  calc (rotl64 (rotl64 x k hk) m hm).getLsbD i
      = (rotl64 (rotl64 x k hk) m hm).getLsbD (((i + k) % 64 + m) % 64) := by rw [hround]
    _ = (rotl64 x k hk).getLsbD ((i + k) % 64) := rotationMovesEveryBit _ m _ hm (Nat.mod_lt _ (by decide))
    _ = x.getLsbD i := rotationMovesEveryBit x k i hk hi

/-! The scramble (R65). -/

/-- The scramble's three steps undone, last first: the multiplication by 9, the rotation, the multiplication by 5. -/
def scrInv (y : Word) : Word := rotl64 (y * 0x8e38e38e38e38e39#64) 57 (by decide) * 0xcccccccccccccccd#64

theorem five_mul_inverse : 5#64 * 0xcccccccccccccccd#64 = 1#64 := by decide

theorem nine_mul_inverse : 9#64 * 0x8e38e38e38e38e39#64 = 1#64 := by decide

theorem scrInv_scr (x : Word) : scrInv (scr x) = x := by
  rw [scrInv, scr, mul_mul_of_inverse nine_mul_inverse, rotl64_rotl64_of_add_eq (by decide),
    mul_mul_of_inverse five_mul_inverse]

theorem scr_scrInv (y : Word) : scr (scrInv y) = y := by
  rw [scr, scrInv, mul_mul_of_inverse ((BitVec.mul_comm _ _).trans five_mul_inverse),
    rotl64_rotl64_of_add_eq (by decide), mul_mul_of_inverse ((BitVec.mul_comm _ _).trans nine_mul_inverse)]

theorem scr_injective : Function.Injective scr := Function.LeftInverse.injective scrInv_scr

theorem scr_zero : scr 0 = 0 := by decide

theorem scr_eq_zero_iff {x : Word} : scr x = 0 ↔ x = 0 :=
  ⟨fun h => scr_injective (h.trans scr_zero.symm), fun h => h ▸ scr_zero⟩

/-- Settles O44: the formula is the definition's, and `scrInv` undoes its three steps from both sides. -/
theorem scrambleIsABijection : Obligations.ScrambleIsABijection :=
  ⟨fun x => by rw [scr, rotl64], scr_zero, scr_injective, fun y => ⟨scrInv y, scr_scrInv y⟩⟩

/-! The advance (R66) and its inverse (R67). -/

/-- Settles O45: steps 5 and 6 read the words that steps 3 and 4 left. -/
theorem advanceInClosedForm : Obligations.AdvanceInClosedForm := by
  intro s0 s1 s2 s3
  simp only [adv, rotl64]

theorem word_xor_cancel_left (x y : Word) : x ^^^ (x ^^^ y) = y := by
  rw [← BitVec.xor_assoc, BitVec.xor_self, BitVec.zero_xor]

theorem word_xor_cancel_right (x y : Word) : x ^^^ y ^^^ y = x := by
  rw [BitVec.xor_assoc, BitVec.xor_self, BitVec.xor_zero]

theorem word_xor_cancel_outer (x y : Word) : x ^^^ y ^^^ x = y := by
  rw [BitVec.xor_comm x y, word_xor_cancel_right]

theorem word_xor_cancel_outer_right (x y : Word) : x ^^^ (y ^^^ x) = y := by
  rw [← BitVec.xor_assoc, word_xor_cancel_outer]

/-- `z ^ (z << 17)`: what is left of s1 in the exclusive or of the advance's new s1 and s2 (R66). -/
def xorShiftLeft (z : Word) : Word := z ^^^ (z <<< 17)

/-- The sum of the shifts of `u` by the multiples of 17 below 64 (R67). -/
def unXorShiftLeft (u : Word) : Word := u ^^^ (u <<< 17) ^^^ (u <<< 34) ^^^ (u <<< 51)

theorem shiftLeft_68_eq_zero (z : Word) : z <<< 68 = 0#64 := BitVec.shiftLeft_eq_zero (by decide)

/-- The shifted terms cancel in pairs, but for the one that is shifted out of the word. -/
theorem unXorShiftLeft_xorShiftLeft (z : Word) : unXorShiftLeft (xorShiftLeft z) = z := by
  simp only [unXorShiftLeft, xorShiftLeft, BitVec.shiftLeft_xor_distrib, ← BitVec.shiftLeft_add, Nat.reduceAdd,
    shiftLeft_68_eq_zero, BitVec.xor_zero, BitVec.xor_assoc, word_xor_cancel_left, BitVec.xor_self]

/-- Shifted once more, the sum holds all its terms but the first. -/
theorem xorShiftLeft_unXorShiftLeft (u : Word) : xorShiftLeft (unXorShiftLeft u) = u := by
  have hshift : unXorShiftLeft u <<< 17 = u <<< 17 ^^^ u <<< 34 ^^^ u <<< 51 := by
    simp only [unXorShiftLeft, BitVec.shiftLeft_xor_distrib, ← BitVec.shiftLeft_add, Nat.reduceAdd,
      shiftLeft_68_eq_zero, BitVec.xor_zero]
  rw [xorShiftLeft, hshift, unXorShiftLeft]
  simp only [BitVec.xor_assoc u, BitVec.xor_self, BitVec.xor_zero]

/-- R67's lines with each word written out: `m3` is `rotl64 a3 19`, and s1 is the sum of the shifts of `u = a1 ^ a2`. -/
theorem advInv_eq (a : BState) : advInv a =
    ⟨a.s0 ^^^ rotl64 a.s3 19 (by decide), unXorShiftLeft (a.s1 ^^^ a.s2),
     a.s1 ^^^ unXorShiftLeft (a.s1 ^^^ a.s2) ^^^ (a.s0 ^^^ rotl64 a.s3 19 (by decide)),
     rotl64 a.s3 19 (by decide) ^^^ unXorShiftLeft (a.s1 ^^^ a.s2)⟩ := rfl

/-- `m3` and `m2` are the words of steps 4 and 3, and `u` is the xor-shift of the old s1; the rest cancels. -/
theorem advInv_adv (b : BState) : advInv (adv b) = b := by
  obtain ⟨s0, s1, s2, s3⟩ := b
  have hu : s1 ^^^ (s2 ^^^ s0) ^^^ (s2 ^^^ s0 ^^^ s1 <<< 17) = xorShiftLeft s1 := by
    rw [xorShiftLeft, BitVec.xor_assoc, word_xor_cancel_left]
  simp only [advInv_eq, adv, hu, unXorShiftLeft_xorShiftLeft, rotl64_rotl64_of_add_eq, word_xor_cancel_right,
    word_xor_cancel_outer]

/-- Steps 3 and 4 find `m2` and `m3` again; step 7 completes the xor-shift of s1, which is `u`. -/
theorem adv_advInv (a : BState) : adv (advInv a) = a := by
  obtain ⟨a0, a1, a2, a3⟩ := a
  have hs2 : a1 ^^^ unXorShiftLeft (a1 ^^^ a2) ^^^ unXorShiftLeft (a1 ^^^ a2) <<< 17 = a2 := by
    rw [BitVec.xor_assoc, ← xorShiftLeft, xorShiftLeft_unXorShiftLeft, word_xor_cancel_left]
  simp only [advInv_eq, adv, hs2, rotl64_rotl64_of_add_eq, word_xor_cancel_right, word_xor_cancel_outer_right]

/-- Settles O46: the two inverse laws of R67. -/
theorem advanceIsABijection : Obligations.AdvanceIsABijection := fun b => ⟨advInv_adv b, adv_advInv b⟩

end Sys2Proof.Machine
end

