-- ==== Sys2Proof/Proofs/GeneratorB.lean ====
section
/-!
Generator B's commands, and the run of B.NEXTs from a seeded state (41_generator_b.md R68 to R70): each B.NEXT responds
from the B_S it finds and advances it once. The advance takes the all-zero state and no other to the all-zero state
(Proofs/NonZeroB.lean).
-/
namespace Sys2Proof.Machine

/-- `s` after a B.NEXT that found `b` in B_S: the response comes from `b`, and its advance is left (R69). -/
def afterBNext (b : BState) (s : State) : State := respond .ok (scr b.s1) { s with bS := adv b }

@[simp] theorem afterBNext_bS (b : BState) (s : State) : (afterBNext b s).bS = adv b := rfl
@[simp] theorem afterBNext_bSeeded (b : BState) (s : State) : (afterBNext b s).bSeeded = s.bSeeded := rfl
@[simp] theorem afterBNext_rsp (b : BState) (s : State) : (afterBNext b s).rsp = some ⟨.ok, scr b.s1⟩ := rfl

/-- A later B.NEXT overwrites what an earlier one wrote. -/
@[simp] theorem afterBNext_afterBNext (a b : BState) (s : State) : afterBNext b (afterBNext a s) = afterBNext b s := rfl

theorem exec_bNext_of_seeded {s : State} (h : s.bSeeded = true) : exec .bNext s = .next (afterBNext s.bS s) := by
  rw [exec_bNext, whenSeeded_of_true h, afterBNext]

/-- Settles O26: the guard is open or closed, and the scramble gives 0 for 0 alone. -/
theorem bNextScramblesThenAdvances : Obligations.BNextScramblesThenAdvances := by
  intro s
  refine ⟨fun _ => decode_cmd_encode .bNext trivial, fun hseeded => ?_, scr_eq_zero_iff, fun hunseeded => ?_⟩
  · exact exec_bNext_of_seeded hseeded
  · exact whenSeeded_of_false hunseeded _ s

/-- Settles O27: the guard is open or closed, and with it open the four words of B_S are read by their indices. -/
theorem bPeekShowsOneWordAndChangesNothing : Obligations.BPeekShowsOneWordAndChangesNothing := by
  intro s
  refine ⟨fun _ => ?_, fun hseeded => ?_, fun hunseeded idx => whenSeeded_of_false hunseeded _ s⟩
  · exact ⟨decode_cmd_encode (.bPeek 0#2) rfl, decode_cmd_encode (.bPeek 1#2) rfl,
      decode_cmd_encode (.bPeek 2#2) rfl, decode_cmd_encode (.bPeek 3#2) rfl⟩
  · have hword (idx : BitVec 2) : exec (.bPeek idx) s = .next (respond .ok (s.bS.word idx) s) :=
      whenSeeded_of_true hseeded _ s
    exact ⟨hword 0#2, hword 1#2, hword 2#2, hword 3#2⟩

/-! Runs of B.NEXTs (R68). -/

theorem adv_zero : adv BState.zero = BState.zero := by decide

/-- `n` advances, first to last. -/
def advTimes : Nat → BState → BState
  | 0, b => b
  | n + 1, b => advTimes n (adv b)

theorem advTimes_zero_state (n : Nat) : advTimes n BState.zero = BState.zero := by
  induction n with
  | zero => rfl
  | succ n ih => rw [advTimes, adv_zero, ih]

/-- No number of advances takes a non-zero state to the all-zero one. -/
theorem advTimes_ne_zero {b : BState} (h : b ≠ BState.zero) (n : Nat) : advTimes n b ≠ BState.zero := by
  induction n generalizing b with
  | zero => exact h
  | succ n ih => exact ih (mt eq_zero_of_adv_eq_zero h)

/-- The last of `n + 1` B.NEXTs finds B_S advanced `n` times. -/
theorem repeatExec_bNext_succ {s : State} (h : s.bSeeded = true) (n : Nat) :
    repeatExec .bNext (n + 1) s = .next (afterBNext (advTimes n s.bS) s) := by
  induction n generalizing s with
  | zero => exact repeatExec_succ 0 (exec_bNext_of_seeded h)
  | succ n ih =>
    rw [repeatExec_succ (n + 1) (exec_bNext_of_seeded h), ih ((afterBNext_bSeeded _ s).trans h), afterBNext_bS,
      afterBNext_afterBNext, advTimes]

/-- Settles O47: after `n` B.NEXTs B_S is its `n`-th advance, which is zero exactly when B_S was. -/
theorem advanceKeepsNonZero : Obligations.AdvanceKeepsNonZero := by
  refine ⟨adv_zero, fun b hb => mt eq_zero_of_adv_eq_zero hb, fun n s hseeded hb => ?_, fun n s hseeded hb => ?_⟩
  · cases n with
    | zero => exact ⟨s, rfl, hb⟩
    | succ n =>
      refine ⟨_, repeatExec_bNext_succ hseeded n, ?_⟩
      rw [afterBNext_bS]
      exact mt eq_zero_of_adv_eq_zero (advTimes_ne_zero hb n)
  · have hscr : scr BState.zero.s1 = 0 := scr_zero
    refine ⟨_, repeatExec_bNext_succ hseeded n, ?_⟩
    rw [hb, advTimes_zero_state, afterBNext_rsp, afterBNext_bS, hscr]
    exact ⟨rfl, adv_zero⟩

end Sys2Proof.Machine
end

