-- ==== Sys2Proof/Proofs/SeedExpansion.lean ====
section
/-!
B.SEED (42_seed_expansion.md R71 to R75). Word `i` of B_S is the mix of the seed plus `i + 1` times GAMMA, whatever B_S
held before. That is what the `i + 1`-th A.NEXT after A.SEED responds (Proofs/GeneratorA.lean), and as both the multiples
of GAMMA and their mixes are distinct, so are the four words.
-/
namespace Sys2Proof.Machine

/-- The engine's A state after its four passes, in R71's closed form. -/
theorem expand_eState_multiple (seed : Word) (b : BState) : (expand seed b).eState = seed + 4#64 * gamma := by
  have hfour : 4#64 * gamma = gamma + (gamma + (gamma + gamma)) := by decide
  rw [expand_eState, hfour]
  simp only [BitVec.add_assoc]

/-- R71's closed form, read by the index of the word. -/
theorem word_expand_bS (seed : Word) (b : BState) (idx : BitVec 2) :
    (expand seed b).bS.word idx = mix64 (seed + BitVec.ofNat 64 (idx.toNat + 1) * gamma) := by
  rw [expand_bS_multiples]
  obtain rfl | rfl | rfl | rfl := index_cases idx
  · exact word_zero _
  · exact word_one _
  · exact word_two _
  · exact word_three _

/-- Two of the engine's words are equal only at the same index: the mix and the multiples of GAMMA lose nothing. -/
theorem word_expand_bS_injective (seed : Word) (b : BState) : Function.Injective (expand seed b).bS.word := by
  intro i j h
  rw [word_expand_bS, word_expand_bS, mix64_injective.eq_iff, add_ofNat_mul_gamma_inj] at h
  bv_omega

/-- Settles O25: B.SEED has no guard, and the engine's registers are in closed form. -/
theorem bSeedExpandsTheSeed : Obligations.BSeedExpandsTheSeed := by
  intro seed s
  refine ⟨decode_cmd_encode (.bSeed seed) rfl, ?_⟩
  rw [exec_bSeed, expand_eState_multiple, expand_bS_multiples, respond]

/-- Settles O48: words at two indices differ, so no two of them are 0. -/
theorem seedExpansionNeverGivesZero : Obligations.SeedExpansionNeverGivesZero := by
  intro seed s
  have hinj := word_expand_bS_injective seed s.bS
  exact ⟨_, exec_bSeed seed s, fun _ _ hne => hinj.ne hne, fun _ _ hi hj => hinj (hi.trans hj.symm),
    expand_bS_ne_zero seed s.bS⟩

/-- Settles O49: both are the mix of the seed plus the same multiple of GAMMA. -/
theorem seedExpansionIsFourOutputsOfA : Obligations.SeedExpansionIsFourOutputsOfA := by
  intro seed s
  refine ⟨_, _, exec_bSeed seed s, exec_aSeed seed s, fun idx => ⟨_, repeatExec_aNext_succ rfl idx.toNat, ?_⟩⟩
  rw [afterANext_rsp, respond_aState, respond_bS, word_expand_bS]

/-- Settles O56: the expansion depends on the seed alone, and A.NEXT on generator A alone, which B.SEED leaves as it was
(R37). -/
theorem bSeedAndGeneratorAAreIndependent : Obligations.BSeedAndGeneratorAAreIndependent := by
  intro seed s s'
  obtain ⟨t, ht⟩ := exec_answers (.bSeed seed) s
  obtain ⟨t', ht'⟩ := exec_answers (.bSeed seed) s'
  obtain ⟨haSeeded, haState⟩ := exec_frameA ht (by simp)
  have hstate : t.aState = s.aState := haState (by simp)
  obtain ⟨u, v, hu, hv, hview⟩ := exec_sameNext_viewA (.inr (.inl rfl)) hstate.symm haSeeded.symm
  obtain ⟨hrsp, huv, -⟩ : u.rsp = v.rsp ∧ u.aState = v.aState ∧ u.aSeeded = v.aSeeded := by
    simpa [viewA] using hview
  have hbS : t.bS = t'.bS := by
    rw [exec_bSeed] at ht ht'
    rw [← next_inj ht, ← next_inj ht', respond_bS, respond_bS, expand_bS, expand_bS]
  exact ⟨t, t', u, v, ht, ht', hbS, hstate, haSeeded, hu, hv, hrsp, huv⟩

end Sys2Proof.Machine
end

