-- ==== Sys2Proof/Proofs/Interface.lean ====
section
/-!
The range constants and the status commands (43_interface.md R77 to R80). None of the four has a guard, so each answers
the same way in every state, unseeded ones among them.
-/
namespace Sys2Proof.Machine

/-- Settles O28: neither read has a guard, and MIN and MAX are the least and the greatest 64-bit word. -/
theorem rangeConstantsAreReadInEveryState : Obligations.RangeConstantsAreReadInEveryState := by
  refine ⟨fun _ => ⟨decode_cmd_encode .rdMin trivial, decode_cmd_encode .rdMax trivial⟩, fun s => ⟨?_, ?_⟩,
    fun w => ⟨BitVec.le_def.mpr (Nat.zero_le w.toNat), BitVec.le_def.mpr (Nat.le_of_lt_succ w.isLt)⟩⟩
  · rw [exec_rdMin, respond, minValue]
  · rw [exec_rdMax, respond, maxValue]

/-- Settles O29: the data is STATUS, which is the packed flags in every state and 0 right after reset (O19). -/
theorem rdStatusReadsTheFlags : Obligations.RdStatusReadsTheFlags := by
  obtain ⟨-, -, -, -, hreset, -⟩ := resetStateFlags
  refine ⟨fun _ => decode_cmd_encode .rdStatus trivial, fun s => ?_, ?_⟩
  · rw [exec_rdStatus, respond, State.status]
  · rw [exec_rdStatus, hreset, respond]

/-- Settles O31: CLR.STATUS responds after clearing the sticky bits, and neither write reaches a seeded flag. -/
theorem clrStatusClearsTheStickyBits : Obligations.ClrStatusClearsTheStickyBits := by
  refine ⟨fun _ => decode_cmd_encode .clrStatus trivial, fun s => ?_⟩
  rw [exec_clrStatus, respond, clearSticky]

end Sys2Proof.Machine
end

