-- ==== Sys2Proof/Proofs/Errors.lean ====
section
/-!
The two errors and the three response codes (60_exceptions.md R81 to R86). ILLEGAL comes from decoding alone, before
anything is executed; UNSEEDED comes from an instruction that is not `ready`, and from nothing else. Both are `raise`,
which writes one sticky bit and the response; the core goes on after either, and holds its state when it has nothing to
do (R94).
-/
namespace Sys2Proof.Machine

/-! What raising an error writes (R85). -/

theorem raise_illegal_eq (s : State) : raise .illegal s = { s with errIll := true, rsp := some ⟨.illegal, 0⟩ } := rfl

theorem raise_unseeded_eq (s : State) : raise .unseeded s = { s with errUns := true, rsp := some ⟨.unseeded, 0⟩ } := rfl

/-! ILLEGAL (R82, R84). -/

/-- Settles O12: by O5 the three conditions are those under which a word decodes to nothing, and then the step raises
ILLEGAL. -/
theorem illegalWordGetsTheIllegalResponse : Obligations.IllegalWordGetsTheIllegalResponse := by
  intro s r rest hhost hfree hword
  obtain ⟨hconditions, -⟩ := exactlyThirteenLegalWords
  have hdecode : r.decode = none := (hconditions r.cmd r.operand).mpr hword
  rw [step_of_command hhost hfree, carryOut_of_illegal hdecode, raise_illegal_eq]

/-- Settles O13: a word that decodes to nothing reaches no seeded guard, and 0x112 has a stray index (O1). -/
theorem illegalBeforeUnseeded : Obligations.IllegalBeforeUnseeded := by
  refine ⟨fun r s hdecode => carryOut_of_illegal hdecode s, fun o s _ => ?_⟩
  obtain ⟨-, -, -, -, -, -, -, hstrayIndex, -⟩ := decodeOfTheSpecsWords o
  have hdecode : Request.decode ⟨0x00000112#32, o⟩ = none := hstrayIndex
  rw [carryOut_of_illegal hdecode, raise_illegal_eq]

/-! UNSEEDED and OK (R83, R86). -/

/-- A ready instruction responds OK, and any other raises UNSEEDED and does nothing else. -/
theorem exec_response {i : Instr} {s t : State} (h : exec i s = .next t) :
    (ready i s ∧ ∃ d, t.rsp = some ⟨.ok, d⟩) ∨ (¬ ready i s ∧ t = raise .unseeded s) := by
  cases exec_cases h with
  | aNextUnseeded hs | aPeekUnseeded hs | bNextUnseeded hs | bPeekUnseeded _ hs => exact .inr ⟨by simp [hs], rfl⟩
  | aNext hs | aPeek hs | bNext hs | bPeek _ hs => exact .inl ⟨hs, _, rfl⟩
  | _ => exact .inl ⟨trivial, _, rfl⟩

/-- R83's four cases. -/
theorem not_ready_iff {i : Instr} {s : State} : ¬ ready i s ↔
    ((i = .aNext ∨ i = .aPeek) ∧ s.aSeeded = false) ∨
    ((i = .bNext ∨ ∃ idx, i = .bPeek idx) ∧ s.bSeeded = false) := by
  cases i <;> simp

/-- Settles O32: the one error of an instruction is raised only when it is not ready. -/
theorem legalCommandsOnSeededGeneratorsSucceed : Obligations.LegalCommandsOnSeededGeneratorsSucceed := by
  intro i s hready
  obtain ⟨t, h⟩ := exec_answers i s
  obtain ⟨-, d, hok⟩ | ⟨hnot, -⟩ := exec_response h
  · exact ⟨t, d, h, hok⟩
  · exact absurd hready hnot

/-- Settles O33: the four cases are those in which the instruction is not ready. -/
theorem unseededInExactlyFourCases : Obligations.UnseededInExactlyFourCases := by
  intro i s
  obtain ⟨t, h⟩ := exec_answers i s
  refine ⟨t, h, ?_⟩
  rw [← not_ready_iff]
  obtain ⟨hready, d, hok⟩ | ⟨hnot, rfl⟩ := exec_response h
  · simp [hok, hready]
  · exact iff_of_true ⟨0, raise_unseeded_rsp s⟩ hnot

/-- Every command responds OK or raises one of the two errors. -/
theorem carryOut_response {r : Request} {s t : State} (h : carryOut r s = .next t) :
    (∃ d, t.rsp = some ⟨.ok, d⟩) ∨ ∃ c, t = raise c s := by
  obtain ⟨i, -, hexec⟩ | ⟨-, hillegal⟩ := carryOut_cases h
  · obtain ⟨-, hok⟩ | ⟨-, hunseeded⟩ := exec_response hexec
    · exact .inl hok
    · exact .inr ⟨.unseeded, hunseeded⟩
  · exact .inr ⟨.illegal, hillegal⟩

/-- Settles O34: each error's code is the response of its own `raise` only, and taking any response frees the channel. -/
theorem errorsArePrecise : Obligations.ErrorsArePrecise := by
  intro r s
  obtain ⟨t, h⟩ := carryOut_answers r s
  have hready : (takeResponse t).reqReady = true := rfl
  obtain ⟨d, hok⟩ | ⟨c, rfl⟩ := carryOut_response h
  · exact ⟨t, _, h, hok, nofun, nofun, hready⟩
  · cases c with
    | illegal => exact ⟨_, _, h, raise_illegal_rsp s, fun _ => raise_illegal_eq s, nofun, hready⟩
    | unseeded => exact ⟨_, _, h, raise_unseeded_rsp s, nofun, fun _ => raise_unseeded_eq s, hready⟩

/-- Settles O35: a code is one of three, and their values are 0, 1 and 2. -/
theorem responseCodesAndNoCodeThree : Obligations.ResponseCodesAndNoCodeThree := by
  refine ⟨rfl, rfl, rfl, fun c => ?_⟩
  cases c <;> decide

/-! The core goes on (R85, R86, R94). -/

/-- Settles O17: no branch of a step, and no instruction, stops (Proofs/Systems.lean). -/
theorem everyStepAnswersANextState : Obligations.EveryStepAnswersANextState := step_answers

/-- Settles O16: with an empty script there is nothing to serve. -/
theorem idleCoreHoldsItsState : Obligations.IdleCoreHoldsItsState := by
  intro s hidle
  rw [step, serveHost, hidle]

end Sys2Proof.Machine
end

