-- ==== Sys2Proof/Proofs/OneSeed.lean ====
section
/-!
One seed, one sequence (60_exceptions.md R91). Seeding makes any two cores agree on the generator and on the response;
each further command of that generator keeps them so (Proofs/Generators.lean).
-/
namespace Sys2Proof.Machine

/-- An instruction that takes states with equal views to states with equal views does so any number of times. -/
theorem repeatExec_sameNext {α : Type} {view : State → α} {i : Instr}
    (hexec : ∀ s t, view s = view t → SameNext view (exec i s) (exec i t)) (n : Nat) {s t : State}
    (h : view s = view t) : SameNext view (repeatExec i n s) (repeatExec i n t) := by
  induction n generalizing s t with
  | zero => exact sameNext_next h
  | succ n ih =>
    obtain ⟨s', t', hs, ht, h'⟩ := hexec s t h
    rw [repeatExec_succ n hs, repeatExec_succ n ht]
    exact ih h'

theorem viewA_eq_iff {s t : State} :
    viewA s = viewA t ↔ s.rsp = t.rsp ∧ s.aState = t.aState ∧ s.aSeeded = t.aSeeded := by
  simp [viewA]

theorem viewB_eq_iff {s t : State} :
    viewB s = viewB t ↔ s.rsp = t.rsp ∧ s.bS = t.bS ∧ s.bSeeded = t.bSeeded := by
  simp [viewB]

/-- A.SEED writes everything the view of generator A shows. -/
theorem exec_aSeed_sameNext (seed : Word) (s t : State) :
    SameNext viewA (exec (.aSeed seed) s) (exec (.aSeed seed) t) := by
  rw [exec_aSeed, exec_aSeed]
  exact sameNext_next rfl

/-- B.SEED writes everything the view of generator B shows: the expansion depends on the seed alone (R72). -/
theorem exec_bSeed_sameNext (seed : Word) (s t : State) :
    SameNext viewB (exec (.bSeed seed) s) (exec (.bSeed seed) t) := by
  rw [exec_bSeed, exec_bSeed, expand_eq, expand_eq]
  exact sameNext_next rfl

theorem repeatExec_aNext_sameNext (n : Nat) {s t : State} (h : viewA s = viewA t) :
    SameNext viewA (repeatExec .aNext n s) (repeatExec .aNext n t) := by
  refine repeatExec_sameNext (fun s t h => ?_) n h
  obtain ⟨-, hstate, hflag⟩ := viewA_eq_iff.mp h
  exact exec_sameNext_viewA (.inr (.inl rfl)) hstate hflag

theorem repeatExec_bNext_sameNext (n : Nat) {s t : State} (h : viewB s = viewB t) :
    SameNext viewB (repeatExec .bNext n s) (repeatExec .bNext n t) := by
  refine repeatExec_sameNext (fun s t h => ?_) n h
  obtain ⟨-, hstate, hflag⟩ := viewB_eq_iff.mp h
  exact exec_sameNext_viewB (.inr (.inl rfl)) hstate hflag

/-- Settles O59: the seeding makes the views equal, and the run keeps them equal. -/
theorem oneSeedOneSequence : Obligations.OneSeedOneSequence := by
  intro seed s t n
  constructor
  · obtain ⟨s1, t1, hs, ht, hseeded⟩ := exec_aSeed_sameNext seed s t
    obtain ⟨u, v, hu, hv, hview⟩ := repeatExec_aNext_sameNext n hseeded
    obtain ⟨hrsp, haState, -⟩ := viewA_eq_iff.mp hview
    exact ⟨s1, t1, u, v, hs, ht, hu, hv, hrsp, haState⟩
  · obtain ⟨s1, t1, hs, ht, hseeded⟩ := exec_bSeed_sameNext seed s t
    obtain ⟨u, v, hu, hv, hview⟩ := repeatExec_bNext_sameNext n hseeded
    obtain ⟨hrsp, hbS, -⟩ := viewB_eq_iff.mp hview
    exact ⟨s1, t1, u, v, hs, ht, hu, hv, hrsp, hbS⟩

end Sys2Proof.Machine
end

