-- ==== Sys2Proof/Proofs/Reset.lean ====
section
/-!
RESET in a run (70_reset_and_hazards.md R95, R96). Alone or cutting off a command, it is the same reset of the core, and
that reset reads nothing a command writes: only the host's script and record and the counter of free values.
-/
namespace Sys2Proof.Machine

section
variable {s t : State} {rest : List HostInput}

/-- RESET does not wait for a response to be taken. -/
theorem step_of_reset (hhost : s.host = .reset :: rest) : step s = .next (applyReset { s with host := rest }) := by
  rw [step, serveHost, hhost]
  rfl

theorem step_of_cutCommand {r : Request} (hhost : s.host = .cutCommand r :: rest) (hfree : s.rsp = none) :
    step s = .next (applyReset { s with host := rest }) := by
  simp [step, serveHost, handle, State.reqReady, hhost, hfree]

/-- The reset state depends on no register, no flag and no response. -/
theorem applyReset_congr (hhost : s.host = t.host) (htaken : s.taken = t.taken) (hdraws : s.draws = t.draws) :
    applyReset s = applyReset t := by
  simp only [applyReset, hhost, htaken, hdraws]

end

/-- The four flags are those of the state right after reset, whose STATUS is 0 (O19). -/
@[simp] theorem applyReset_status (s : State) : (applyReset s).status = 0 := by
  obtain ⟨-, -, -, -, hstatus, -⟩ := resetStateFlags
  exact (status_congr rfl rfl rfl rfl).trans hstatus

@[simp] theorem applyReset_reqReady (s : State) : (applyReset s).reqReady = true := rfl

/-- Settles O21: each of the three steps resets the core, and the two states agree on all that a reset reads. -/
theorem commandCutByResetLeavesNothing : Obligations.CommandCutByResetLeavesNothing := by
  intro s u r rest hs hsfree hhost hufree htaken hdraws
  have hu : u.host = .cutCommand r :: rest := hhost.trans hs
  have hsame : applyReset { u with host := rest } = applyReset { s with host := rest } :=
    applyReset_congr rfl htaken hdraws
  refine ⟨_, step_of_cutCommand hs hsfree, ?_, step_of_reset rfl, ?_⟩
  · rw [step_of_cutCommand hu hufree, hsame]
  · simp

/-- Settles O20: the step resets the core, whatever was on offer. -/
theorem resetInputClearsTheFlags : Obligations.ResetInputClearsTheFlags := by
  intro s rest hhost
  exact ⟨_, step_of_reset hhost, by simp⟩

end Sys2Proof.Machine
end
